-- ==== Sys2Proof/Word.lean ====
section
/-! DEFINITION. The machine's words: 8-bit cells of BUF, 32-bit registers and 64-bit blocks
(spec 00_scope.md R6, R8). All values are unsigned (R8). -/

namespace Sys2Proof

/-- A cell of BUF, 8 bits (20_memory.md R50). -/
abbrev Byte := BitVec 8

/-- A host-visible register, a P entry or an S entry, 32 bits (R6: WORD, REG_BITS). -/
abbrev Word := BitVec 32

/-- A block or the IV as one 64-bit value, `Hi || Lo` (20_memory.md R53, R6: IV_BITS). -/
abbrev DWord := BitVec 64

end Sys2Proof
end

