-- ==== Sys2Proof/Syntax.lean ====
section
/-! DEFINITION. The sixteen commands of 30_encoding.md R73, the host's bus operations of R76, and the
assembly lines and pseudo-instructions of R76 and R77. -/

namespace Sys2Proof

/-- The commands, one constructor per row of spec/opcode_table.json. No command has a register or an
immediate field: operands travel in the fixed registers (30_encoding.md R71, R72). -/
inductive Instr where
  /-- 0x01, load a key schedule (40_key_schedule.md R105). -/
  | keyinit
  /-- 0x02, zero all secret state (40_key_schedule.md R107). -/
  | cleanup
  /-- 0x10, encrypt the block in DHI, DLO (42_ecb_core.md R135). -/
  | encb
  /-- 0x11, decrypt the block in DHI, DLO (42_ecb_core.md R136). -/
  | decb
  /-- 0x12, encrypt whole blocks of BUF (42_ecb_core.md R138). -/
  | ecbenc
  /-- 0x13, decrypt whole blocks of BUF (42_ecb_core.md R139). -/
  | ecbdec
  /-- 0x20, set the IV register (43_cbc.md R161). -/
  | setiv
  /-- 0x21, read the IV register (43_cbc.md R162). -/
  | getiv
  /-- 0x22, encrypt whole blocks of BUF in CBC mode (43_cbc.md R163). -/
  | cbcenc
  /-- 0x23, decrypt whole blocks of BUF in CBC mode (43_cbc.md R164). -/
  | cbcdec
  /-- 0x30, read a 32-bit big-endian word from BUF (44_codec.md R181). -/
  | ld32
  /-- 0x31, write a 32-bit word to BUF big-endian (44_codec.md R182). -/
  | st32
  /-- 0x32, read a 64-bit big-endian value from BUF (44_codec.md R183). -/
  | ld64
  /-- 0x33, write a 64-bit value to BUF big-endian (44_codec.md R184). -/
  | st64
  /-- 0x34, bytes to lowercase hex characters (44_codec.md R186). -/
  | hexenc
  /-- 0x35, hex characters to bytes, skipping malformed pairs (44_codec.md R188). -/
  | hexdec
deriving DecidableEq, Repr

/-- The eleven host-visible registers of 10_state.md R27. -/
inductive Reg where
  | cmd | status | src | dst | len | dhi | dlo | rhi | rlo | count | fcmd
deriving DecidableEq, Repr

/-- One entry of the sequence the machine's surroundings perform: the bus operations of 30_encoding.md
R76, and the platform's reset signal (70_reset_and_hazards.md R240, log 8). Addresses are bus
addresses, unbounded as R9 has all address arithmetic. -/
inductive HostOp where
  /-- `W32(a, v)`: a 32-bit write. -/
  | w32 (a : Nat) (v : Word)
  /-- `R32(a)`: a 32-bit read. -/
  | r32 (a : Nat)
  /-- `W8(a, b)`: a byte write. -/
  | w8 (a : Nat) (b : Byte)
  /-- `R8(a)`: a byte read. -/
  | r8 (a : Nat)
  /-- `wait`: "repeat R32(BASE + 0x004) until bit 8 of the value read is 0". -/
  | poll
  /-- The platform asserts reset. -/
  | resetSignal
deriving DecidableEq, Repr

/-- A line of assembly (30_encoding.md R76), as abstract syntax (log 12). -/
inductive Line where
  /-- `wr REG, v` -/
  | wr (r : Reg) (v : Word)
  /-- `rd REG` -/
  | rd (r : Reg)
  /-- `bw a, b0, b1, ...` -/
  | bw (a : Nat) (bytes : List Byte)
  /-- `br a, k` -/
  | br (a k : Nat)
  /-- `cmd NAME` -/
  | cmd (i : Instr)
  /-- `wait` -/
  | wait
  /-- `; text` -/
  | comment (text : String)
deriving DecidableEq, Repr

/-- The pseudo-instructions of 30_encoding.md R77, with their operands. -/
inductive Pseudo where
  | keyinit (src len : Word)
  | cleanup
  | encb (hi lo : Word)
  | decb (hi lo : Word)
  | ecbenc (src dst len : Word)
  | ecbdec (src dst len : Word)
  | setiv (hi lo : Word)
  | getiv
  | cbcenc (src dst len : Word)
  | cbcdec (src dst len : Word)
  | ld32 (src : Word)
  | st32 (dst w : Word)
  | ld64 (src : Word)
  | st64 (dst hi lo : Word)
  | hexenc (src dst len : Word)
  | hexdec (src dst len : Word)
deriving DecidableEq, Repr

/-- What an assembly program is made of: lines and pseudo-instructions (30_encoding.md R78). -/
inductive Item where
  | line (l : Line)
  | pseudo (p : Pseudo)
deriving DecidableEq, Repr

end Sys2Proof
end

