-- ==== Sys2Proof/Decode.lean ====
section
/-! DEFINITION. The command word of 30_encoding.md: the decoder, total on 32-bit words and rejecting by
name (R70, R73, R74), then the encoder, written from R73's table on its own. -/

namespace Sys2Proof

/-- Why a command word is illegal (30_encoding.md R74). Both raise ILLEGAL_COMMAND in the engine. -/
inductive DecodeReject where
  /-- RSV (bits 31:8) is not 0. -/
  | reservedBits
  /-- RSV is 0 and OP (bits 7:0) is not in R73. -/
  | unlistedOp
deriving DecidableEq, Repr

/-- OP, bits 7:0 (R70). -/
def opField (w : Word) : BitVec 8 := w.extractLsb' 0 8

/-- RSV, bits 31:8 (R70). -/
def rsvField (w : Word) : BitVec 24 := w.extractLsb' 8 24

/-- The command map of R73, from OP to command. -/
def opcodeMap : List (BitVec 8 × Instr) :=
  [(0x01, .keyinit), (0x02, .cleanup),
   (0x10, .encb), (0x11, .decb), (0x12, .ecbenc), (0x13, .ecbdec),
   (0x20, .setiv), (0x21, .getiv), (0x22, .cbcenc), (0x23, .cbcdec),
   (0x30, .ld32), (0x31, .st32), (0x32, .ld64), (0x33, .st64), (0x34, .hexenc), (0x35, .hexdec)]

/-- The command with number `op`, if R73 lists it. -/
def lookupOp (op : BitVec 8) : List (BitVec 8 × Instr) → Option Instr
  | [] => none
  | (k, i) :: rest => if k = op then some i else lookupOp op rest

/-- The decoder: "A word selects one of these commands iff RSV = 0 and OP is in the table" (R73); every
other word is illegal (R74). -/
def decode (w : Word) : Except DecodeReject Instr :=
  if rsvField w = 0 then
    match lookupOp (opField w) opcodeMap with
    | some i => .ok i
    | none => .error .unlistedOp
  else .error .reservedBits

/-- The command number of R73. -/
def opNumber : Instr → BitVec 8
  | .keyinit => 0x01
  | .cleanup => 0x02
  | .encb => 0x10
  | .decb => 0x11
  | .ecbenc => 0x12
  | .ecbdec => 0x13
  | .setiv => 0x20
  | .getiv => 0x21
  | .cbcenc => 0x22
  | .cbcdec => 0x23
  | .ld32 => 0x30
  | .st32 => 0x31
  | .ld64 => 0x32
  | .st64 => 0x33
  | .hexenc => 0x34
  | .hexdec => 0x35

/-- The command word, `zext_32(OP)` (R73). -/
def encode (i : Instr) : Word := (opNumber i).setWidth 32

/-- The instruction the decoder reads from an instruction of `nbits` bits whose bits are `w`. A command
is one 32-bit word written to CMD whole (R70, R75), so bit 0 of `w` is bit 0 of the word and there is no
byte order to choose; bits from `nbits` on are 0; a value that is no 32-bit word is refused. -/
def decodeTableWord (nbits w : Nat) : Option Instr :=
  if w % 2 ^ nbits < 2 ^ 32 then
    match decode (BitVec.ofNat 32 (w % 2 ^ nbits)) with
    | .ok i => some i
    | .error _ => none
  else none

end Sys2Proof
end

