-- ==== Sys2Proof/Config.lean ====
section
/-! DEFINITION. What is fixed for a machine: the fixed parameters of 00_scope.md R6, the platform's
parameters of R7, and the one free value the spec leaves (the contents of BUF after reset). -/

namespace Sys2Proof

namespace Config

/-- BLOCK_BYTES (R6): "Block: exactly 8 bytes". -/
def blockBytes : Nat := 8

/-- MINKEYLENGTH (R6). -/
def minKeyLength : Nat := 1

/-- MAXKEYLENGTH (R6). -/
def maxKeyLength : Nat := 56

/-- The least BUF_BYTES R7 allows. -/
def minBufBytes : Nat := 64

/-- The largest BUF_BYTES R7 allows. -/
def maxBufBytes : Nat := 2 ^ 31

/-- The register window's size in bytes, offsets 0x000 to 0x03F (R7, 20_memory.md R51). -/
def windowBytes : Nat := 64

/-- FREE VALUE: the byte that stands at an address of BUF after a reset, until something writes it
(10_state.md R41 "unspecified: each byte is any value", 93_implementation_defined.md U6). It has no
body, so no proof can know it. The first argument counts the resets, since each draws BUF anew
(70_reset_and_hazards.md R240); the second is the address. Log 2. -/
opaque freeByte : Nat → Nat → Byte

end Config

/-- The open parameters of 00_scope.md R7 that an instance is built with. No command, host operation
or reset changes them. Statements quantify over them; State.reset takes the spec's examples (log 1). -/
structure Platform where
  /-- BUF_BYTES, the size of BUF in bytes. -/
  bufBytes : Nat
  /-- BASE, the bus address of the register window. -/
  base : Nat
  /-- BUF_BASE, the bus address of BUF[0]. -/
  bufBase : Nat
deriving DecidableEq, Repr

end Sys2Proof
end

