-- ==== Sys2Proof/Machine/State.lean ====
section
/-! DEFINITION. The state of one BFCORE instance (10_state.md R20), the host that drives it (R37), the
reasons a step can stop, and the state after reset (R41). All of it is plain data. -/

namespace Sys2Proof.Machine

/-- The contents of BUF that something has written since the last reset: cells in the canonical form of
`Memory.wf`. An unlisted address holds no written value (log 2). -/
abbrev Memory := List Host.Cell

/-- What an unlisted address holds: nothing has been written there since reset (10_state.md R41). What
the machine then reads is the free value `Config.freeByte`, see `readByte` (log 2). -/
def Memory.unlisted : Option Byte := none

/-- The cipher state: the P-array (10_state.md R21) and the four S-boxes (R22). -/
structure Cipher where
  /-- P[0] to P[17]. -/
  p : Vector Word 18
  /-- S[0] to S[3], the source's S1 to S4. -/
  s : Vector (Vector Word 256) 4
deriving DecidableEq, Repr

/-- P and S all zero, as after reset (R41) and CLEANUP (40_key_schedule.md R107). -/
def Cipher.zero : Cipher :=
  { p := Vector.replicate 18 0, s := Vector.replicate 4 (Vector.replicate 256 0) }

/-- The fault latch (10_state.md R25). -/
structure Latch where
  /-- STATUS.FAULT: a command has faulted since reset. -/
  fault : Bool
  /-- STATUS.ECODE: that fault's code (60_exceptions.md R210). -/
  ecode : BitVec 4
  /-- FCMD: the command word that raised it (R34). -/
  fcmd : Word
deriving DecidableEq, Repr

/-- The latch with no fault (R41). -/
def Latch.clear : Latch := { fault := false, ecode := 0, fcmd := 0 }

/-- The operand and result registers of 10_state.md R27 (R30 to R33). -/
structure Regs where
  src : Word
  dst : Word
  len : Word
  dhi : Word
  dlo : Word
  rhi : Word
  rlo : Word
  count : Word
deriving DecidableEq, Repr

/-- Every register 0 (R27, R41). -/
def Regs.zero : Regs :=
  { src := 0, dst := 0, len := 0, dhi := 0, dlo := 0, rhi := 0, rlo := 0, count := 0 }

/-- The host agent (10_state.md R37). Reset does not reach it. -/
structure HostSide where
  /-- The host's sequence of bus operations (30_encoding.md R78), with the platform's resets (log 8). -/
  program : List HostOp
  /-- The index of the next host operation (R37). -/
  pc : Nat
  /-- The duty of 70_reset_and_hazards.md R244 holds: from a CMD write until a STATUS read shows
  BUSY = 0 (log 5). -/
  mustPoll : Bool
  /-- What the host's reads returned, the latest first; a byte read is zero-extended (log 6). -/
  seen : List Word
deriving DecidableEq, Repr

/-- A host with nothing to do. -/
def HostSide.idle : HostSide := { program := [], pc := 0, mustPoll := false, seen := [] }

/-- The whole state: the tuple of 10_state.md R20, the parameters of 00_scope.md R7, the host of R37. -/
structure State where
  /-- BUF_BYTES, BASE and BUF_BASE (R7). Nothing changes them. -/
  plat : Platform
  /-- P and S. -/
  cipher : Cipher
  /-- The 64-bit IV register (R23): IVH is bits 63:32, IVL bits 31:0. -/
  iv : DWord
  /-- KEYV (R24). -/
  keyv : Bool
  /-- FAULT, ECODE, FCMD (R25). -/
  latch : Latch
  /-- BUSY (R26): a command word has been written and its command is not complete. -/
  busy : Bool
  /-- CMD (R28): the word the last CMD write brought, which the engine decodes (log 10). -/
  cmd : Word
  /-- SRC, DST, LEN, DHI, DLO, RHI, RLO, COUNT. -/
  regs : Regs
  /-- BUF (R36). -/
  buf : Memory
  /-- The model's own: how many resets the machine has taken; keys the free contents of BUF (log 2). -/
  epoch : Nat
  /-- What is left of the pending command's LATENCY (R7, R249), counted in steps (log 4). -/
  latency : Nat
  /-- LATENCY of the commands still to be issued, the next one first; an ended list stands for 0 (log 4). -/
  schedule : List Nat
  /-- The host. -/
  host : HostSide
deriving DecidableEq, Repr

/-- Why a step stops with a fault. BFCORE's own faults are NOT here: they set the fault latch and the
machine goes on (60_exceptions.md R217). -/
inductive Fault where
  /-- A host bus access to an address outside both windows of 20_memory.md R51: nothing of BFCORE is
  there. Raised by `performOp` (Machine/Bus.lean). Safe: the model stops. Log 7. -/
  | unmappedBusAddress
deriving DecidableEq, Repr

/-- Why a step is refused. -/
inductive Refusal where
  /-- An instruction that has no meaning yet, by its mnemonic. Raised by `exec`'s refused arms only
  (there is none now). Safe. -/
  | notModelled (mnemonic : String)
  /-- A host access to a reserved register offset, 0x02C to 0x03C (10_state.md R35: "the model refuses
  such a program"). Raised by `performOp`. Safe. -/
  | reservedOffset
  /-- A host access to the register window that is not an aligned 32-bit word (R35). Raised by
  `performOp`. Safe. -/
  | notAlignedWord
  /-- A 32-bit host access to BUF, which the host reaches in single bytes (R36). Raised by `performOp`.
  Safe. Log 7. -/
  | notByteAccess
  /-- A host move other than a STATUS read between a CMD write and a STATUS read with BUSY = 0
  (70_reset_and_hazards.md R244: "a program that breaks this duty is refused and has no meaning").
  Raised by `performOp`. Safe. Log 5. -/
  | busyHazard
deriving DecidableEq, Repr

/-- The machine right after reset (10_state.md R41, 70_reset_and_hazards.md R240, R241): the engine idle,
every element 0, BUF with nothing written. The platform's parameters are the spec's own examples
(log 1), the schedule and the host's program are empty (log 3, log 4). -/
def State.reset : State :=
  { plat := { bufBytes := 4096, base := 0x0000, bufBase := 0x1000 }
    cipher := Cipher.zero
    iv := 0
    keyv := false
    latch := Latch.clear
    busy := false
    cmd := 0
    regs := Regs.zero
    buf := []
    epoch := 0
    latency := 0
    schedule := []
    host := HostSide.idle }

end Sys2Proof.Machine
end

