-- ==== Sys2Proof/Machine/Flags.lean ====
section
/-! DEFINITION. STATUS (10_state.md R29) and the fault codes (60_exceptions.md R210). BFCORE has no
arithmetic flags (42_ecb_core.md R134). -/

namespace Sys2Proof.Machine

/-- The fault codes that are raised (60_exceptions.md R210 to R214). -/
inductive FaultCode where
  /-- The word is not one of R73's (R211). -/
  | illegalCommand
  /-- KEYINIT with LEN outside 1..56 (R212). -/
  | invalidKeyLength
  /-- A checked range fails InBounds (R213). -/
  | bufferBounds
  /-- A cipher command with KEYV = 0 (R214). -/
  | noKey
deriving DecidableEq, Repr

/-- The code's number in STATUS.ECODE (R210). -/
def ecodeOf : FaultCode → BitVec 4
  | .illegalCommand => 1
  | .invalidKeyLength => 2
  | .bufferBounds => 3
  | .noKey => 4

/-- STATUS as the host reads it (10_state.md R29): KEYV in bit 0, FAULT in bit 1, ECODE in bits 7:4, BUSY
in bit 8, bits 3:2 and 31:9 read 0. -/
def statusWord (s : State) : Word :=
  (0#23 ++ BitVec.ofBool s.busy ++ s.latch.ecode ++ 0#2 ++ BitVec.ofBool s.latch.fault
    ++ BitVec.ofBool s.keyv : BitVec (23 + 1 + 4 + 2 + 1 + 1))

/-- Bit 8 of a value read from STATUS, which `wait` looks at (30_encoding.md R76). -/
def showsBusy (v : Word) : Bool := v.getLsbD 8

end Sys2Proof.Machine
end

