-- ==== Sys2Proof/Machine/Operands.lean ====
section
/-! DEFINITION. How operands are read: byte fields and big-endian conversions (00_scope.md R10,
20_memory.md R52), offsets and lengths as unsigned numbers (30_encoding.md R71), the rounded length
(42_ecb_core.md R137), the bounds predicate (20_memory.md R56). -/

namespace Sys2Proof.Machine

/-! ## Fields of words (R10) and big-endian conversions (R52) -/

/-- `byte0(x) = x[31:24]`, the most significant byte (R10). -/
def byte0 (x : Word) : Byte := x.extractLsb' 24 8

/-- `byte1(x) = x[23:16]` (R10). -/
def byte1 (x : Word) : Byte := x.extractLsb' 16 8

/-- `byte2(x) = x[15:8]` (R10). -/
def byte2 (x : Word) : Byte := x.extractLsb' 8 8

/-- `byte3(x) = x[7:0]` (R10). -/
def byte3 (x : Word) : Byte := x.extractLsb' 0 8

/-- `BE32(b0, b1, b2, b3)` (R52): the first byte is the most significant. -/
def be32 (b0 b1 b2 b3 : Byte) : Word := b0 ++ b1 ++ b2 ++ b3

/-- The half `v[63:32]`: Hi of a block, IVH of the IV (R53, 10_state.md R23). -/
def hiHalf (v : DWord) : Word := v.extractLsb' 32 32

/-- The half `v[31:0]`: Lo of a block, IVL of the IV. -/
def loHalf (v : DWord) : Word := v.extractLsb' 0 32

/-- `a || b` for 32-bit a and b (00_scope.md R8). -/
def join (hi lo : Word) : DWord := hi ++ lo

/-! ## Offsets and lengths (30_encoding.md R71) -/

/-- SRC as an unsigned offset. -/
def srcOffset (s : State) : Nat := s.regs.src.toNat

/-- DST as an unsigned offset. -/
def dstOffset (s : State) : Nat := s.regs.dst.toNat

/-- LEN as an unsigned length. -/
def lenValue (s : State) : Nat := s.regs.len.toNat

/-- n = LEN − (LEN mod 8), the bytes a bulk block command processes (42_ecb_core.md R137). -/
def roundedLength (s : State) : Nat := lenValue s - lenValue s % Config.blockBytes

/-- floor(LEN/2), the character pairs HEXDEC reads (44_codec.md R188). -/
def pairCount (s : State) : Nat := lenValue s / 2

/-- `InBounds(a, n)` iff a + n ≤ BUF_BYTES, the sum in unbounded integers (20_memory.md R56). -/
def inBounds (s : State) (a n : Nat) : Bool := decide (a + n ≤ s.plat.bufBytes)

/-- LEN is a legal key length, 1 to 56 (40_key_schedule.md R105, R106). -/
def keyLengthOk (s : State) : Bool :=
  decide (Config.minKeyLength ≤ lenValue s) && decide (lenValue s ≤ Config.maxKeyLength)

/-! ## Hex digits (44_codec.md R185, R187) -/

/-- `HexChar(v)` (R185): '0'..'9' then 'a'..'f', always lowercase. -/
def hexChar (v : BitVec 4) : Byte :=
  if v.toNat ≤ 9 then 0x30 + v.setWidth 8 else 0x61 + (v.setWidth 8 - 10)

/-- `HexVal(c)` (R187), `none` for INVALID: uppercase is invalid (90_conflicts.md C3). -/
def hexVal (c : Byte) : Option (BitVec 4) :=
  if 0x30 ≤ c.toNat ∧ c.toNat ≤ 0x39 then some ((c - 0x30).setWidth 4)
  else if 0x61 ≤ c.toNat ∧ c.toNat ≤ 0x66 then some ((c - 0x61 + 10).setWidth 4)
  else none

/-- The byte of a valid character pair, `16·HexVal(c1) + HexVal(c2)` (R188); `none` if either character
is invalid. -/
def hexPair (c1 c2 : Byte) : Option Byte :=
  match hexVal c1, hexVal c2 with
  | some h, some l => some (h ++ l : BitVec (4 + 4))
  | _, _ => none

/-- `b[7:4]`, the high nibble. -/
def highNibble (b : Byte) : BitVec 4 := b.extractLsb' 4 4

/-- `b[3:0]`, the low nibble. -/
def lowNibble (b : Byte) : BitVec 4 := b.extractLsb' 0 4

end Sys2Proof.Machine
end

