-- ==== Sys2Proof/Machine/Ops.lean ====
section
/-! DEFINITION. The operations every command is made of: BUF (20_memory.md R54), the result registers and
the IV, the fault entry and its only exit (60_exceptions.md R217, R220), and the frame of checks that
comes before a command's effect (R216, R219). -/

namespace Sys2Proof.Machine

/-! ## The list that holds BUF -/

/-- What was written at an address, if anything was. -/
def Memory.read : Memory → Nat → Option Byte
  | [], _ => Memory.unlisted
  | (k, b) :: rest, a => if k = a then some b else Memory.read rest a

/-- Writes a byte, keeping the addresses strictly rising. -/
def Memory.write : Memory → Nat → Byte → Memory
  | [], a, v => [(a, v)]
  | (k, b) :: rest, a, v =>
    if a < k then (a, v) :: (k, b) :: rest
    else if a = k then (a, v) :: rest
    else (k, b) :: Memory.write rest a v

/-- Writes the four bytes of a word, the most significant at the lowest address (20_memory.md R52). -/
def Memory.write32 (m : Memory) (a : Nat) (v : Word) : Memory :=
  (((m.write a (byte0 v)).write (a + 1) (byte1 v)).write (a + 2) (byte2 v)).write (a + 3) (byte3 v)

/-- Writes the eight bytes of a block, Hi in bytes 0..3 and Lo in bytes 4..7 (20_memory.md R53). -/
def Memory.write64 (m : Memory) (a : Nat) (v : DWord) : Memory :=
  (m.write32 a (hiHalf v)).write32 (a + 4) (loHalf v)

/-- The addresses rise strictly. -/
def Memory.rising : Memory → Bool
  | [] => true
  | [_] => true
  | (k, _) :: (k', b') :: rest => decide (k < k') && Memory.rising ((k', b') :: rest)

/-- The canonical form: addresses strictly rising, and no entry equal to what an unlisted address holds. -/
def Memory.wf (m : Memory) : Bool :=
  Memory.rising m && m.all (fun cell => decide (some cell.2 ≠ Memory.unlisted))

/-- Every listed address is an offset of BUF (20_memory.md R50). -/
def Memory.below (m : Memory) (bound : Nat) : Bool := m.all (fun cell => decide (cell.1 < bound))

/-! ## BUF (20_memory.md R54) -/

/-- `MemReadByte(a)` (R54): what was written there since reset, else the free value of that cell
(10_state.md R41, log 2). -/
def readByte (s : State) (a : Nat) : Byte :=
  match s.buf.read a with
  | some b => b
  | none => Config.freeByte s.epoch a

/-- `MemWriteByte(a, b)` (R54). -/
def writeByte (a : Nat) (b : Byte) (s : State) : State := { s with buf := s.buf.write a b }

/-- `MemRead(a, 4)` (R54): big-endian (R52). -/
def read32 (s : State) (a : Nat) : Word :=
  be32 (readByte s a) (readByte s (a + 1)) (readByte s (a + 2)) (readByte s (a + 3))

/-- `MemWrite(a, 4, v)` (R54): the most significant byte at `a`. -/
def write32 (a : Nat) (v : Word) (s : State) : State := { s with buf := s.buf.write32 a v }

/-- `MemRead(a, 8)` (R54): Hi from bytes 0..3, Lo from bytes 4..7 (R53). -/
def read64 (s : State) (a : Nat) : DWord := join (read32 s a) (read32 s (a + 4))

/-- `MemWrite(a, 8, v)` (R54). -/
def write64 (a : Nat) (v : DWord) (s : State) : State := { s with buf := s.buf.write64 a v }

/-- The `n` bytes at `a`, lowest offset first (40_key_schedule.md R105 reads the key so). -/
def readBytes (s : State) : (n a : Nat) → List Byte
  | 0, _ => []
  | n + 1, a => readByte s a :: readBytes s n (a + 1)

/-! ## Result registers, IV and cipher state -/

/-- RHI and RLO <- the result halves (10_state.md R32). -/
def setResult (hi lo : Word) (s : State) : State := { s with regs := { s.regs with rhi := hi, rlo := lo } }

/-- COUNT <- n (10_state.md R33). -/
def setCount (n : Nat) (s : State) : State := { s with regs := { s.regs with count := BitVec.ofNat 32 n } }

/-- IV <- v (10_state.md R23). -/
def setIv (v : DWord) (s : State) : State := { s with iv := v }

/-- What KEYINIT writes (40_key_schedule.md R105): (P, S) <- the schedule, IV <- 0, KEYV <- 1. -/
def loadSchedule (c : Cipher) (s : State) : State := { s with cipher := c, iv := 0, keyv := true }

/-- What CLEANUP writes (40_key_schedule.md R107): P, S, IV, KEYV, DHI, DLO, RHI and RLO <- 0. -/
def zeroSecrets (s : State) : State :=
  { s with
    cipher := Cipher.zero
    iv := 0
    keyv := false
    regs := { s.regs with dhi := 0, dlo := 0, rhi := 0, rlo := 0 } }

/-! ## Faults -/

/-- Fault entry (60_exceptions.md R217): "FAULT <- 1 ; ECODE <- e ; FCMD <- the command word. Nothing else
changes." Control goes nowhere: there is no vector, handler or mode. -/
def raiseFault (e : FaultCode) (w : Word) (s : State) : State :=
  { s with latch := { fault := true, ecode := ecodeOf e, fcmd := w } }

/-- The reset event (70_reset_and_hazards.md R240), the only exit from a fault (60_exceptions.md R220):
every element takes its value of 10_state.md R41, a command in progress is aborted, and BUF is drawn
anew (the next epoch). The platform's parameters and the host stay; the host's duty to poll ends, since
the engine is idle again (R241, log 8). -/
def takeReset (s : State) : State :=
  { s with
    cipher := Cipher.zero
    iv := 0
    keyv := false
    latch := Latch.clear
    busy := false
    cmd := 0
    regs := Regs.zero
    buf := []
    epoch := s.epoch + 1
    latency := 0
    host := { s.host with mustPoll := false } }

/-- The first check that fails, with its code (60_exceptions.md R216). -/
def firstFailure : List (Bool × FaultCode) → Option FaultCode
  | [] => none
  | (holds, e) :: rest => if holds then firstFailure rest else some e

/-- The frame of every command but CLEANUP: "if FAULT = 1: ignore" (60_exceptions.md R219), then the
checks in the order of R216, the first that fails taking the fault with this command's word, then the
effect. All checks come before any access (R218). -/
def runCommand (i : Instr) (checks : List (Bool × FaultCode)) (effect : State → State) (s : State) : State :=
  if s.latch.fault then s
  else
    match firstFailure checks with
    | some e => raiseFault e (encode i) s
    | none => effect s

/-- An illegal command word (60_exceptions.md R211, R219): ignored while FAULT = 1, else ILLEGAL_COMMAND
with the word itself in FCMD. -/
def runIllegal (w : Word) (s : State) : State :=
  if s.latch.fault then s else raiseFault .illegalCommand w s

end Sys2Proof.Machine
end

