-- ==== Sys2Proof/Machine/Bus.lean ====
section
/-! DEFINITION. The host's side of the bus: the register map (10_state.md R27), what a register read returns
and a register write does (R28 to R35), the two windows (20_memory.md R51), the busy duty
(70_reset_and_hazards.md R244), and one turn of the host's program (R37). -/

namespace Sys2Proof.Machine

/-- The byte offset of a register in the window (10_state.md R27). -/
def regOffset : Reg → Nat
  | .cmd => 0x000
  | .status => 0x004
  | .src => 0x008
  | .dst => 0x00C
  | .len => 0x010
  | .dhi => 0x014
  | .dlo => 0x018
  | .rhi => 0x01C
  | .rlo => 0x020
  | .count => 0x024
  | .fcmd => 0x028

/-- The register at a byte offset of the window; `none` for the reserved offsets (R27). -/
def regAt : Nat → Option Reg
  | 0x000 => some .cmd
  | 0x004 => some .status
  | 0x008 => some .src
  | 0x00C => some .dst
  | 0x010 => some .len
  | 0x014 => some .dhi
  | 0x018 => some .dlo
  | 0x01C => some .rhi
  | 0x020 => some .rlo
  | 0x024 => some .count
  | 0x028 => some .fcmd
  | _ => none

/-- What a host read of a register returns. CMD reads as 0 (R28). No read has a side effect on the engine
(20_memory.md R58). -/
def readReg (s : State) : Reg → Word
  | .cmd => 0
  | .status => statusWord s
  | .src => s.regs.src
  | .dst => s.regs.dst
  | .len => s.regs.len
  | .dhi => s.regs.dhi
  | .dlo => s.regs.dlo
  | .rhi => s.regs.rhi
  | .rlo => s.regs.rlo
  | .count => s.regs.count
  | .fcmd => s.latch.fcmd

/-- A command word arrives in CMD (R28): BUSY <- 1, and the host must poll from now on
(70_reset_and_hazards.md R244). `left` steps of latency come before the engine acts. -/
def postCommand (w : Word) (left : Nat) (s : State) : State :=
  { s with cmd := w, busy := true, latency := left, host := { s.host with mustPoll := true } }

/-- A host write of CMD (R28), the command's latency taken from the schedule (00_scope.md R7, log 4). -/
def writeCmd (w : Word) (s : State) : State :=
  { postCommand w (s.schedule.headD 0) s with schedule := s.schedule.tail }

/-- What a host write of a register does: SRC, DST, LEN, DHI and DLO take the value (R30, R31), CMD starts
a command (R28), the read-only registers ignore it (R29, R32 to R35). -/
def writeReg (r : Reg) (v : Word) (s : State) : State :=
  match r with
  | .cmd => writeCmd v s
  | .src => { s with regs := { s.regs with src := v } }
  | .dst => { s with regs := { s.regs with dst := v } }
  | .len => { s with regs := { s.regs with len := v } }
  | .dhi => { s with regs := { s.regs with dhi := v } }
  | .dlo => { s with regs := { s.regs with dlo := v } }
  | .status | .rhi | .rlo | .count | .fcmd => s

/-- What a bus address reaches (20_memory.md R51). -/
inductive BusTarget where
  /-- A register, at an aligned word of the window. -/
  | register (r : Reg)
  /-- A reserved offset, 0x02C to 0x03C. -/
  | reserved
  /-- An address of the register window that is not a word boundary. -/
  | unaligned
  /-- A byte of BUF, by its offset. -/
  | buffer (offset : Nat)
  /-- Neither window. -/
  | outside
deriving DecidableEq, Repr

/-- What bus address `a` reaches. Where the windows overlap, which R7 rules out, the register window is
taken (log 14). -/
def busTarget (p : Platform) (a : Nat) : BusTarget :=
  if p.base ≤ a ∧ a < p.base + Config.windowBytes then
    if (a - p.base) % 4 = 0 then
      match regAt (a - p.base) with
      | some r => .register r
      | none => .reserved
    else .unaligned
  else if p.bufBase ≤ a ∧ a < p.bufBase + p.bufBytes then .buffer (a - p.bufBase)
  else .outside

/-- The host has performed its operation: on to the next one (10_state.md R37). -/
def advance (s : State) : State := { s with host := { s.host with pc := s.host.pc + 1 } }

/-- The host's read returned `v` (log 6). -/
def record (v : Word) (s : State) : State := { s with host := { s.host with seen := v :: s.host.seen } }

/-- The host has read `v` from STATUS: if it shows BUSY = 0 the duty of R244 ends. -/
def noteStatus (v : Word) (s : State) : State :=
  { s with host := { s.host with mustPoll := s.host.mustPoll && showsBusy v } }

/-- A host read of register `r`, whose value the host records; of STATUS it also takes note (R244). -/
def hostReadReg (r : Reg) (s : State) : State :=
  let v := readReg s r
  match r with
  | .status => noteStatus v (record v s)
  | _ => record v s

/-- One turn of `wait` (30_encoding.md R76): read STATUS, and stay at this line while bit 8 is 1. -/
def pollStatus (s : State) : State :=
  let s' := hostReadReg .status s
  if showsBusy (statusWord s) then s' else advance s'

/-- The host may do nothing but read STATUS now (70_reset_and_hazards.md R244). -/
def onlyStatus (s : State) : Bool := s.busy || s.host.mustPoll

/-- The operation is a read of STATUS, or the platform's reset, which is no move of the host's. -/
def allowedWhileBusy (p : Platform) : HostOp → Bool
  | .r32 a => busTarget p a = .register .status
  | .poll => true
  | .resetSignal => true
  | .w32 _ _ => false
  | .w8 _ _ => false
  | .r8 _ => false

/-- A 32-bit write (10_state.md R35). -/
def busWrite32 (a : Nat) (v : Word) (s : State) : Host.Outcome State Fault Refusal :=
  match busTarget s.plat a with
  | .register r => .next (advance (writeReg r v s))
  | .reserved => .refused .reservedOffset
  | .unaligned => .refused .notAlignedWord
  | .buffer _ => .refused .notByteAccess
  | .outside => .fault .unmappedBusAddress

/-- A 32-bit read (10_state.md R35). -/
def busRead32 (a : Nat) (s : State) : Host.Outcome State Fault Refusal :=
  match busTarget s.plat a with
  | .register r => .next (advance (hostReadReg r s))
  | .reserved => .refused .reservedOffset
  | .unaligned => .refused .notAlignedWord
  | .buffer _ => .refused .notByteAccess
  | .outside => .fault .unmappedBusAddress

/-- A byte write (10_state.md R36): BUF only. -/
def busWrite8 (a : Nat) (b : Byte) (s : State) : Host.Outcome State Fault Refusal :=
  match busTarget s.plat a with
  | .buffer offset => .next (advance (writeByte offset b s))
  | .register _ => .refused .notAlignedWord
  | .reserved => .refused .reservedOffset
  | .unaligned => .refused .notAlignedWord
  | .outside => .fault .unmappedBusAddress

/-- A byte read (10_state.md R36): BUF only. -/
def busRead8 (a : Nat) (s : State) : Host.Outcome State Fault Refusal :=
  match busTarget s.plat a with
  | .buffer offset => .next (advance (record ((readByte s offset).setWidth 32) s))
  | .register _ => .refused .notAlignedWord
  | .reserved => .refused .reservedOffset
  | .unaligned => .refused .notAlignedWord
  | .outside => .fault .unmappedBusAddress

/-- One operation of the host or the platform. A move that breaks the duty of R244 is refused. -/
def performOp (op : HostOp) (s : State) : Host.Outcome State Fault Refusal :=
  if onlyStatus s && !allowedWhileBusy s.plat op then .refused .busyHazard
  else
    match op with
    | .w32 a v => busWrite32 a v s
    | .r32 a => busRead32 a s
    | .w8 a b => busWrite8 a b s
    | .r8 a => busRead8 a s
    | .poll => .next (pollStatus s)
    | .resetSignal => .next (advance (takeReset s))

/-- The host's next operation, if it has one left (10_state.md R37). -/
def nextOp (s : State) : Option HostOp := s.host.program[s.host.pc]?

/-- The host's turn. With no operation left the machine stays as it is (60_exceptions.md R228, log 9). -/
def hostTurn (s : State) : Host.Outcome State Fault Refusal :=
  match nextOp s with
  | some op => performOp op s
  | none => .next s

end Sys2Proof.Machine
end

