-- ==== Sys2Proof/Machine/Cipher.lean ====
section
/-! DEFINITION. The pure functions of 42_ecb_core.md: the round function F (R130), EncryptBlock (R131),
DecryptBlock (R132), and the textbook form of R141. They read P and S and write nothing. -/

namespace Sys2Proof.Machine

/-- P[i]. -/
def pEntry (c : Cipher) (i : Fin 18) : Word := c.p.get i

/-- S[k][j]; every byte value j is a valid index (R130). -/
def sEntry (c : Cipher) (k : Fin 4) (j : Byte) : Word := (c.s.get k).get j.toFin

/-- F (R130): `((S[0][byte0 x] + S[1][byte1 x]) XOR S[2][byte2 x]) + S[3][byte3 x]`, additions modulo
2^32 (R134). -/
def roundF (c : Cipher) (x : Word) : Word :=
  ((sEntry c 0 (byte0 x) + sEntry c 1 (byte1 x)) ^^^ sEntry c 2 (byte2 x)) + sEntry c 3 (byte3 x)

/-- The rounds 1 to 16. -/
def rounds : List (Fin 18) := [1, 2, 3, 4, 5, 6, 7, 8, 9, 10, 11, 12, 13, 14, 15, 16]

/-- Round r of EncryptBlock on (L, R) (R131): an odd round changes R, an even round L. -/
def encryptRound (c : Cipher) (b : Word × Word) (r : Fin 18) : Word × Word :=
  if r.val % 2 = 1 then (b.1, b.2 ^^^ roundF c b.1 ^^^ pEntry c r)
  else (b.1 ^^^ roundF c b.2 ^^^ pEntry c r, b.2)

/-- `EncryptBlock(L, R)` (R131): whitening with P[0], rounds 1 to 16, whitening with P[17]; the output Hi is
the final R (90_conflicts.md C2). -/
def encryptBlock (c : Cipher) (b : Word × Word) : Word × Word :=
  let m := rounds.foldl (encryptRound c) (b.1 ^^^ pEntry c 0, b.2)
  (m.2 ^^^ pEntry c 17, m.1)

/-- Round r of DecryptBlock on (L, R) (R132): an even round changes R, an odd round L. -/
def decryptRound (c : Cipher) (b : Word × Word) (r : Fin 18) : Word × Word :=
  if r.val % 2 = 0 then (b.1, b.2 ^^^ roundF c b.1 ^^^ pEntry c r)
  else (b.1 ^^^ roundF c b.2 ^^^ pEntry c r, b.2)

/-- `DecryptBlock(L, R)` (R132): whitening with P[17], rounds 16 down to 1, whitening with P[0]. -/
def decryptBlock (c : Cipher) (b : Word × Word) : Word × Word :=
  let m := rounds.reverse.foldl (decryptRound c) (b.1 ^^^ pEntry c 17, b.2)
  (m.2 ^^^ pEntry c 0, m.1)

/-- A round of the textbook loop (R141): `L <- L XOR P[i]; R <- R XOR F(L); swap(L, R)`. -/
def textbookRound (c : Cipher) (b : Word × Word) (i : Fin 18) : Word × Word :=
  let l := b.1 ^^^ pEntry c i
  (b.2 ^^^ roundF c l, l)

/-- The textbook formulation of EncryptBlock (R141): the loop for i in 0..15, the last swap undone, then
`R <- R XOR P[16]; L <- L XOR P[17]`. No command uses it. -/
def textbookEncrypt (c : Cipher) (b : Word × Word) : Word × Word :=
  let m := ([0, 1, 2, 3, 4, 5, 6, 7, 8, 9, 10, 11, 12, 13, 14, 15] : List (Fin 18)).foldl (textbookRound c) b
  (m.2 ^^^ pEntry c 17, m.1 ^^^ pEntry c 16)

/-- EncryptBlock on a block as one 64-bit value, `Hi || Lo` (20_memory.md R53). -/
def encrypt64 (c : Cipher) (x : DWord) : DWord :=
  let b := encryptBlock c (hiHalf x, loHalf x)
  join b.1 b.2

/-- DecryptBlock on a block as one 64-bit value. -/
def decrypt64 (c : Cipher) (x : DWord) : DWord :=
  let b := decryptBlock c (hiHalf x, loHalf x)
  join b.1 b.2

end Sys2Proof.Machine
end

