-- ==== Sys2Proof/Machine/Ecb.lean ====
section
/-! DEFINITION. The ECB commands of 42_ecb_core.md: ENCB, DECB (R135, R136), ECBENC, ECBDEC (R138, R139),
and the block loop the bulk commands of both modes share (R137, 20_memory.md R66). -/

namespace Sys2Proof.Machine

/-- The loop of the bulk block commands: `k` blocks from `src` to `dst`, in increasing order, each block
read whole before its result is written (20_memory.md R66). `mode iv x` is what the mode makes of a
block `x` under the chaining value `iv`: the block to write and the next chaining value. -/
def blockLoop (mode : DWord → DWord → DWord × DWord) : (k src dst : Nat) → State → State
  | 0, _, _, s => s
  | k + 1, src, dst, s =>
    let r := mode s.iv (read64 s src)
    blockLoop mode k (src + Config.blockBytes) (dst + Config.blockBytes) (setIv r.2 (write64 dst r.1 s))

/-- ECB encryption of a block (R138): the chaining value is neither read nor changed. -/
def ecbEncryptMode (c : Cipher) (iv x : DWord) : DWord × DWord := (encrypt64 c x, iv)

/-- ECB decryption of a block (R139). -/
def ecbDecryptMode (c : Cipher) (iv x : DWord) : DWord × DWord := (decrypt64 c x, iv)

/-- The effect of a bulk block command once its checks hold: n/8 blocks, then `COUNT <- n` (R137). -/
def bulkEffect (mode : DWord → DWord → DWord × DWord) (s : State) : State :=
  setCount (roundedLength s)
    (blockLoop mode (roundedLength s / Config.blockBytes) (srcOffset s) (dstOffset s) s)

/-- The checks of the bulk block commands (R138): a key is loaded, both ranges of n bytes are in bounds. -/
def bulkChecks (s : State) : List (Bool × FaultCode) :=
  [(s.keyv, .noKey),
   (inBounds s (srcOffset s) (roundedLength s) && inBounds s (dstOffset s) (roundedLength s), .bufferBounds)]

/-- ENCB (R135). -/
def execEncb (s : State) : Host.Outcome State Fault Refusal :=
  .next (runCommand .encb [(s.keyv, .noKey)]
    (fun s => let b := encryptBlock s.cipher (s.regs.dhi, s.regs.dlo); setResult b.1 b.2 s) s)

/-- DECB (R136). -/
def execDecb (s : State) : Host.Outcome State Fault Refusal :=
  .next (runCommand .decb [(s.keyv, .noKey)]
    (fun s => let b := decryptBlock s.cipher (s.regs.dhi, s.regs.dlo); setResult b.1 b.2 s) s)

/-- ECBENC (R138). -/
def execEcbenc (s : State) : Host.Outcome State Fault Refusal :=
  .next (runCommand .ecbenc (bulkChecks s) (bulkEffect (ecbEncryptMode s.cipher)) s)

/-- ECBDEC (R139). -/
def execEcbdec (s : State) : Host.Outcome State Fault Refusal :=
  .next (runCommand .ecbdec (bulkChecks s) (bulkEffect (ecbDecryptMode s.cipher)) s)

end Sys2Proof.Machine
end

