-- ==== Sys2Proof/Machine/Cbc.lean ====
section
/-! DEFINITION. The IV register's commands and CBC mode (43_cbc.md): SETIV, GETIV (R161, R162), CBCENC,
CBCDEC (R163, R164). -/

namespace Sys2Proof.Machine

/-- CBC encryption of a block (R163): the ciphertext is the next chaining value. -/
def cbcEncryptMode (c : Cipher) (iv x : DWord) : DWord × DWord :=
  let y := encrypt64 c (x ^^^ iv)
  (y, y)

/-- CBC decryption of a block (R164): the raw ciphertext read is the next chaining value. -/
def cbcDecryptMode (c : Cipher) (iv x : DWord) : DWord × DWord := (decrypt64 c x ^^^ iv, x)

/-- SETIV (R161): no key is needed. -/
def execSetiv (s : State) : Host.Outcome State Fault Refusal :=
  .next (runCommand .setiv [] (fun s => setIv (join s.regs.dhi s.regs.dlo) s) s)

/-- GETIV (R162): no key is needed. -/
def execGetiv (s : State) : Host.Outcome State Fault Refusal :=
  .next (runCommand .getiv [] (fun s => setResult (hiHalf s.iv) (loHalf s.iv) s) s)

/-- CBCENC (R163). -/
def execCbcenc (s : State) : Host.Outcome State Fault Refusal :=
  .next (runCommand .cbcenc (bulkChecks s) (bulkEffect (cbcEncryptMode s.cipher)) s)

/-- CBCDEC (R164). -/
def execCbcdec (s : State) : Host.Outcome State Fault Refusal :=
  .next (runCommand .cbcdec (bulkChecks s) (bulkEffect (cbcDecryptMode s.cipher)) s)

end Sys2Proof.Machine
end

