-- ==== Sys2Proof/Machine/Codec.lean ====
section
/-! DEFINITION. The binary codec (44_codec.md): LD32, ST32, LD64, ST64 (R181 to R184), HEXENC (R186), HEXDEC
(R188). None needs a key, and none reads or writes P, S or IV. -/

namespace Sys2Proof.Machine

/-- HEXENC's loop (R186): byte by byte in increasing order, each byte read before its two characters are
written, the high nibble first. -/
def hexEncodeLoop : (m src dst : Nat) → State → State
  | 0, _, _, s => s
  | m + 1, src, dst, s =>
    let b := readByte s src
    hexEncodeLoop m (src + 1) (dst + 2)
      (writeByte (dst + 1) (hexChar (lowNibble b)) (writeByte dst (hexChar (highNibble b)) s))

/-- HEXDEC's loop (R188) over `p` pairs from `src` on, the next valid byte going to `dst`: a malformed pair
is skipped. Answers how many bytes it wrote, and the state. -/
def hexDecodeLoop : (p src dst : Nat) → State → Nat × State
  | 0, _, _, s => (0, s)
  | p + 1, src, dst, s =>
    match hexPair (readByte s src) (readByte s (src + 1)) with
    | some b =>
      let r := hexDecodeLoop p (src + 2) (dst + 1) (writeByte dst b s)
      (r.1 + 1, r.2)
    | none => hexDecodeLoop p (src + 2) dst s

/-- The effect of HEXENC: `COUNT <- 2·m` at the end (R186). -/
def hexEncodeEffect (s : State) : State :=
  setCount (2 * lenValue s) (hexEncodeLoop (lenValue s) (srcOffset s) (dstOffset s) s)

/-- The effect of HEXDEC: `COUNT <- k` at the end (R188). -/
def hexDecodeEffect (s : State) : State :=
  let r := hexDecodeLoop (pairCount s) (srcOffset s) (dstOffset s) s
  setCount r.1 r.2

/-- LD32 (R181): the word to RLO, 0 to RHI. -/
def execLd32 (s : State) : Host.Outcome State Fault Refusal :=
  .next (runCommand .ld32 [(inBounds s (srcOffset s) 4, .bufferBounds)]
    (fun s => setResult 0 (read32 s (srcOffset s)) s) s)

/-- ST32 (R182): DLO to BUF; DHI is not read. -/
def execSt32 (s : State) : Host.Outcome State Fault Refusal :=
  .next (runCommand .st32 [(inBounds s (dstOffset s) 4, .bufferBounds)]
    (fun s => write32 (dstOffset s) s.regs.dlo s) s)

/-- LD64 (R183). -/
def execLd64 (s : State) : Host.Outcome State Fault Refusal :=
  .next (runCommand .ld64 [(inBounds s (srcOffset s) 8, .bufferBounds)]
    (fun s => let v := read64 s (srcOffset s); setResult (hiHalf v) (loHalf v) s) s)

/-- ST64 (R184). -/
def execSt64 (s : State) : Host.Outcome State Fault Refusal :=
  .next (runCommand .st64 [(inBounds s (dstOffset s) 8, .bufferBounds)]
    (fun s => write64 (dstOffset s) (join s.regs.dhi s.regs.dlo) s) s)

/-- HEXENC (R186): no length rounding; 2·LEN characters must fit. -/
def execHexenc (s : State) : Host.Outcome State Fault Refusal :=
  .next (runCommand .hexenc
    [(inBounds s (srcOffset s) (lenValue s) && inBounds s (dstOffset s) (2 * lenValue s), .bufferBounds)]
    hexEncodeEffect s)

/-- HEXDEC (R188): an odd last character is never read. -/
def execHexdec (s : State) : Host.Outcome State Fault Refusal :=
  .next (runCommand .hexdec
    [(inBounds s (srcOffset s) (2 * pairCount s) && inBounds s (dstOffset s) (pairCount s), .bufferBounds)]
    hexDecodeEffect s)

end Sys2Proof.Machine
end

