-- ==== Sys2Proof/Machine/KeySchedule.lean ====
section
/-! DEFINITION. The key schedule (40_key_schedule.md R100 to R103) and the commands KEYINIT (R105) and
CLEANUP (R107). -/

namespace Sys2Proof.Machine

/-- `P[i] <- w`. -/
def setP (c : Cipher) (i : Fin 18) (w : Word) : Cipher := { c with p := c.p.set i w }

/-- `S[k][j] <- w`. -/
def setS (c : Cipher) (k : Fin 4) (j : Fin 256) (w : Word) : Cipher :=
  { c with s := c.s.set k ((c.s.get k).set j w) }

/-- One key byte into a chunk (R102): `d <- (d << 8) OR zext_32(key[j]) ; j <- (j + 1) mod m`. -/
def takeKeyByte (key : List Byte) (d : Word × Nat) : Word × Nat :=
  ((d.1 <<< 8) ||| (key.getD d.2 0).setWidth 32, (d.2 + 1) % key.length)

/-- The chunk that starts at key index j, and the index after it: four key bytes, big-endian (R102). -/
def keyChunk (key : List Byte) (j : Nat) : Word × Nat :=
  takeKeyByte key (takeKeyByte key (takeKeyByte key (takeKeyByte key (0, j))))

/-- One turn of step 2's loop (R102): `P[i] <- P[i] XOR d`, the key index running on. -/
def mixEntry (key : List Byte) (cj : Cipher × Nat) (i : Fin 18) : Cipher × Nat :=
  let d := keyChunk key cj.2
  (setP cj.1 i (pEntry cj.1 i ^^^ d.1), d.2)

/-- Step 2 (R102): the key mixed into P[0] to P[17]. -/
def mixKey (key : List Byte) (c : Cipher) : Cipher := ((List.finRange 18).foldl (mixEntry key) (c, 0)).1

/-- One turn of step 3 over P (R103): the running block is encrypted with the tables as they stand, its
halves go to P[2i] and P[2i+1]. -/
def fillP (cb : Cipher × (Word × Word)) (i : Fin 9) : Cipher × (Word × Word) :=
  let b := encryptBlock cb.1 cb.2
  (setP (setP cb.1 ⟨2 * i.val, by omega⟩ b.1) ⟨2 * i.val + 1, by omega⟩ b.2, b)

/-- One turn of step 3 over S[k] (R103): the halves go to S[k][2j] and S[k][2j+1]. -/
def fillS (k : Fin 4) (cb : Cipher × (Word × Word)) (j : Fin 128) : Cipher × (Word × Word) :=
  let b := encryptBlock cb.1 cb.2
  (setS (setS cb.1 k ⟨2 * j.val, by omega⟩ b.1) k ⟨2 * j.val + 1, by omega⟩ b.2, b)

/-- Step 3 (R103): 521 chained encryptions, from the all-zero block, overwrite P then S[0] to S[3]. -/
def selfEncrypt (c : Cipher) : Cipher :=
  ((List.finRange 4).foldl (fun cb k => (List.finRange 128).foldl (fillS k) cb)
    ((List.finRange 9).foldl fillP (c, (0, 0)))).1

/-- `KeySchedule(key)` (R100): the tables of π (R101), the key mixed in (R102), the self-encryption (R103). -/
def keySchedule (key : List Byte) : Cipher := selfEncrypt (mixKey key Cipher.initial)

/-- The key KEYINIT reads: LEN bytes of BUF from SRC on (R105). -/
def keyBytes (s : State) : List Byte := readBytes s (lenValue s) (srcOffset s)

/-- The effect of KEYINIT once its checks hold (R105): the key is read whole, then P, S, IV and KEYV are
written. -/
def keyinitEffect (s : State) : State := loadSchedule (keySchedule (keyBytes s)) s

/-- KEYINIT (R105): the length is checked before the bounds. -/
def execKeyinit (s : State) : Host.Outcome State Fault Refusal :=
  .next (runCommand .keyinit
    [(keyLengthOk s, .invalidKeyLength), (inBounds s (srcOffset s) (lenValue s), .bufferBounds)]
    keyinitEffect s)

/-- CLEANUP (R107): performed even while FAULT = 1 (60_exceptions.md R219), and it cannot fault. -/
def execCleanup (s : State) : Host.Outcome State Fault Refusal := .next (zeroSecrets s)

end Sys2Proof.Machine
end

