-- ==== Sys2Proof/Machine/Dispatch.lean ====
section
/-! DEFINITION. One arm per command (30_encoding.md R73), each a direct call of its meaning. -/

namespace Sys2Proof.Machine

def exec (i : Instr) (s : State) : Host.Outcome State Fault Refusal :=
  match i with
  | .keyinit => Sys2Proof.Machine.execKeyinit s
  | .cleanup => Sys2Proof.Machine.execCleanup s
  | .encb => Sys2Proof.Machine.execEncb s
  | .decb => Sys2Proof.Machine.execDecb s
  | .ecbenc => Sys2Proof.Machine.execEcbenc s
  | .ecbdec => Sys2Proof.Machine.execEcbdec s
  | .setiv => Sys2Proof.Machine.execSetiv s
  | .getiv => Sys2Proof.Machine.execGetiv s
  | .cbcenc => Sys2Proof.Machine.execCbcenc s
  | .cbcdec => Sys2Proof.Machine.execCbcdec s
  | .ld32 => Sys2Proof.Machine.execLd32 s
  | .st32 => Sys2Proof.Machine.execSt32 s
  | .ld64 => Sys2Proof.Machine.execLd64 s
  | .st64 => Sys2Proof.Machine.execSt64 s
  | .hexenc => Sys2Proof.Machine.execHexenc s
  | .hexdec => Sys2Proof.Machine.execHexdec s

end Sys2Proof.Machine
end

