-- ==== Sys2Proof/Machine/Engine.lean ====
section
/-! DEFINITION. The engine's turn: decode the word in CMD and perform the command as one step, which ends
with BUSY <- 0 (10_state.md R26, R28). -/

namespace Sys2Proof.Machine

/-- "That step ends with BUSY <- 0" (R28). -/
def clearBusy (s : State) : State := { s with busy := false }

/-- The end of a command that answers a next state. -/
def endCommand : Host.Outcome State Fault Refusal → Host.Outcome State Fault Refusal
  | .next t => .next (clearBusy t)
  | .fault r => .fault r
  | .refused r => .refused r

/-- The word the engine takes up: what the host last wrote to CMD (R28). -/
def fetchWord (s : State) : Word := s.cmd

/-- The engine performs the pending command (R28): a listed word runs its command, an illegal one is
60_exceptions.md R211's. -/
def engineTurn (s : State) : Host.Outcome State Fault Refusal :=
  match decode (fetchWord s) with
  | .ok i => endCommand (exec i s)
  | .error _ => .next (clearBusy (runIllegal (fetchWord s) s))

/-- A step of a pending command's latency passes (00_scope.md R7, log 4). -/
def passTime (left : Nat) (s : State) : State := { s with latency := left }

/-- One step: the engine's turn when a command is pending and its latency has run out, else the host's,
while a pending command's latency runs. -/
def oneStep (s : State) : Host.Outcome State Fault Refusal :=
  if s.busy then
    match s.latency with
    | 0 => engineTurn s
    | left + 1 => hostTurn (passTime left s)
  else hostTurn s

/-- A command word as if the host had just written it to CMD, its latency run out, so that the next step
is the engine's and takes up exactly this word (R28, log 3). -/
def placeWord (w : Word) (s : State) : State := postCommand w 0 s

end Sys2Proof.Machine
end

