-- ==== Sys2Proof/Machine/Step.lean ====
section
/-! DEFINITION. The machine's step, and the placing of a command word where the step takes up its next
command. BFCORE has no program counter and fetches nothing (10_state.md R37): the next command is the
word in CMD while BUSY = 1 (R28). -/

namespace Sys2Proof.Machine

/-- One step of the machine (10_state.md R26, R28, R37). -/
def step (s : State) : Host.Outcome State Fault Refusal := oneStep s

/-- `s` with the command word `w` (its low `nbits` bits, at most 32) pending in CMD, so that the very next
step runs it (log 3). -/
def State.withFetchWord (s : State) (nbits w : Nat) : State := placeWord (BitVec.ofNat 32 (w % 2 ^ nbits)) s

end Sys2Proof.Machine
end

