-- ==== Sys2Proof/Machine/Assembly.lean ====
section
/-! DEFINITION. The assembler of 30_encoding.md: lines to bus operations (R76), pseudo-instructions to lines
(R77), a program to its list of bus operations (R78). -/

namespace Sys2Proof.Machine

/-- `W32(BASE + off(REG), v)` (R76). -/
def assembleWr (p : Platform) (r : Reg) (v : Word) : HostOp := .w32 (p.base + regOffset r) v

/-- `W8(BUF_BASE + a + i, bi)` for each i in order (R76). -/
def assembleBytes (p : Platform) : (a : Nat) → List Byte → List HostOp
  | _, [] => []
  | a, b :: rest => .w8 (p.bufBase + a) b :: assembleBytes p (a + 1) rest

/-- The bus operations of a line (R76). -/
def assembleLine (p : Platform) : Line → List HostOp
  | .wr r v => [assembleWr p r v]
  | .rd r => [.r32 (p.base + regOffset r)]
  | .bw a bytes => assembleBytes p a bytes
  | .br a k => (List.range k).map (fun i => .r8 (p.bufBase + a + i))
  | .cmd i => [assembleWr p .cmd (encode i)]
  | .wait => [.poll]
  | .comment _ => []

/-- A command and its `wait`, the tail of every expansion of R77. -/
def issue (i : Instr) : List Line := [.cmd i, .wait]

/-- The lines a pseudo-instruction stands for (R77). -/
def expand : Pseudo → List Line
  | .keyinit src len => [.wr .src src, .wr .len len] ++ issue .keyinit
  | .cleanup => issue .cleanup
  | .encb hi lo => [.wr .dhi hi, .wr .dlo lo] ++ issue .encb
  | .decb hi lo => [.wr .dhi hi, .wr .dlo lo] ++ issue .decb
  | .ecbenc src dst len => [.wr .src src, .wr .dst dst, .wr .len len] ++ issue .ecbenc
  | .ecbdec src dst len => [.wr .src src, .wr .dst dst, .wr .len len] ++ issue .ecbdec
  | .setiv hi lo => [.wr .dhi hi, .wr .dlo lo] ++ issue .setiv
  | .getiv => issue .getiv
  | .cbcenc src dst len => [.wr .src src, .wr .dst dst, .wr .len len] ++ issue .cbcenc
  | .cbcdec src dst len => [.wr .src src, .wr .dst dst, .wr .len len] ++ issue .cbcdec
  | .ld32 src => [.wr .src src] ++ issue .ld32
  | .st32 dst w => [.wr .dst dst, .wr .dlo w] ++ issue .st32
  | .ld64 src => [.wr .src src] ++ issue .ld64
  | .st64 dst hi lo => [.wr .dst dst, .wr .dhi hi, .wr .dlo lo] ++ issue .st64
  | .hexenc src dst len => [.wr .src src, .wr .dst dst, .wr .len len] ++ issue .hexenc
  | .hexdec src dst len => [.wr .src src, .wr .dst dst, .wr .len len] ++ issue .hexdec

/-- The lines of a program's item. -/
def itemLines : Item → List Line
  | .line l => [l]
  | .pseudo q => expand q

/-- The assembled program (R78): the pseudo-instructions expanded, then every line's bus operations. -/
def assemble (p : Platform) (items : List Item) : List HostOp :=
  (items.flatMap itemLines).flatMap (assembleLine p)

/-- The host is given a program to perform from its first operation on (10_state.md R37, log 3). -/
def giveProgram (program : List HostOp) (s : State) : State :=
  { s with host := { s.host with program := program, pc := 0 } }

end Sys2Proof.Machine
end

