-- ==== Sys2Proof/Machine/AsmText.lean ====
section
/-! DEFINITION. The written form of assembly (30_encoding.md R76, R77): a line's characters to lines and
pseudo-instructions. Mnemonics and registers are spelled as the spec's tables and programs spell them;
arguments are separated by commas or spaces, as both stand there (log 12). -/

namespace Sys2Proof.Machine

/-- A token of a line. -/
inductive Token where
  /-- A run of characters between separators. -/
  | word (w : List Char)
  /-- A quoted ASCII string, without its quotes. -/
  | quoted (q : List Char)
  /-- A comment, from after its semicolon to the end of the line. -/
  | comment (c : List Char)
deriving DecidableEq, Repr

/-- The double quote, ASCII 34. -/
def quoteMark : Char := Char.ofNat 34

/-- The word collected so far (backwards), if any. -/
def flushWord (acc : List Char) : List Token := if acc.isEmpty then [] else [.word acc.reverse]

/-- The tokens of a line; `inQuote` says that a quote is open, `acc` holds what is being collected. An open
quote at the end of the line is an error. -/
def lexLine (inQuote : Bool) (acc : List Char) : List Char → Option (List Token)
  | [] => if inQuote then none else some (flushWord acc)
  | c :: rest =>
    if inQuote then
      if c = quoteMark then (lexLine false [] rest).map (.quoted acc.reverse :: ·)
      else lexLine true (c :: acc) rest
    else if c = ';' then some (flushWord acc ++ [.comment rest])
    else if c = ' ' ∨ c = ',' then (lexLine false [] rest).map (flushWord acc ++ ·)
    else if c = quoteMark then (lexLine true [] rest).map (flushWord acc ++ ·)
    else lexLine false (c :: acc) rest

/-- The value of a digit, hexadecimal in either case. -/
def digitValue (c : Char) : Option Nat :=
  if '0'.toNat ≤ c.toNat ∧ c.toNat ≤ '9'.toNat then some (c.toNat - '0'.toNat)
  else if 'a'.toNat ≤ c.toNat ∧ c.toNat ≤ 'f'.toNat then some (c.toNat - 'a'.toNat + 10)
  else if 'A'.toNat ≤ c.toNat ∧ c.toNat ≤ 'F'.toNat then some (c.toNat - 'A'.toNat + 10)
  else none

/-- The value of digits in a base, continuing from `v`. -/
def digitsValue (base v : Nat) : List Char → Option Nat
  | [] => some v
  | c :: rest =>
    match digitValue c with
    | some d => if d < base then digitsValue base (v * base + d) rest else none
    | none => none

/-- "Values are written in hexadecimal with `0x` or in decimal" (R76). -/
def numberValue : List Char → Option Nat
  | [] => none
  | [c] => digitsValue 10 0 [c]
  | a :: b :: rest =>
    if a = '0' ∧ b = 'x' then if rest.isEmpty then none else digitsValue 16 0 rest
    else digitsValue 10 0 (a :: b :: rest)

/-- A number as an argument. -/
def numberArg : Token → Option Nat
  | .word w => numberValue w
  | .quoted _ => none
  | .comment _ => none

/-- A number of 32 bits. -/
def wordArg (t : Token) : Option Word :=
  match numberArg t with
  | some v => if v < 2 ^ 32 then some (BitVec.ofNat 32 v) else none
  | none => none

/-- The bytes of one argument of `bw`: "two hex digits without `0x`, or a quoted ASCII string that stands for
its character codes" (R76). -/
def bytesArg : Token → Option (List Byte)
  | .word [a, b] => (digitsValue 16 0 [a, b]).map (fun v => [BitVec.ofNat 8 v])
  | .word _ => none
  | .quoted q =>
    if q.all (fun c => decide (c.toNat < 128)) then some (q.map (fun c => BitVec.ofNat 8 c.toNat)) else none
  | .comment _ => none

/-- The register of a name (10_state.md R27). -/
def regOfName (n : List Char) : Option Reg :=
  ([("CMD", .cmd), ("STATUS", .status), ("SRC", .src), ("DST", .dst), ("LEN", .len), ("DHI", .dhi),
    ("DLO", .dlo), ("RHI", .rhi), ("RLO", .rlo), ("COUNT", .count), ("FCMD", .fcmd)]
    : List (String × Reg)).findSome? (fun e => if e.1.toList = n then some e.2 else none)

/-- The command of a mnemonic (R73). -/
def instrOfName (n : List Char) : Option Instr :=
  ([("KEYINIT", .keyinit), ("CLEANUP", .cleanup), ("ENCB", .encb), ("DECB", .decb), ("ECBENC", .ecbenc),
    ("ECBDEC", .ecbdec), ("SETIV", .setiv), ("GETIV", .getiv), ("CBCENC", .cbcenc), ("CBCDEC", .cbcdec),
    ("LD32", .ld32), ("ST32", .st32), ("LD64", .ld64), ("ST64", .st64), ("HEXENC", .hexenc),
    ("HEXDEC", .hexdec)] : List (String × Instr)).findSome? (fun e => if e.1.toList = n then some e.2 else none)

/-- A line that is no pseudo-instruction (R76), from its first word and its arguments. -/
def parseLine (op : List Char) (args : List Token) : Option Line :=
  if op = "wr".toList then
    match args with
    | [.word r, v] => (regOfName r).bind (fun r => (wordArg v).map (.wr r))
    | _ => none
  else if op = "rd".toList then
    match args with
    | [.word r] => (regOfName r).map .rd
    | _ => none
  else if op = "bw".toList then
    match args with
    | a :: rest => (numberArg a).bind (fun a => (rest.mapM bytesArg).map (fun bs => .bw a bs.flatten))
    | [] => none
  else if op = "br".toList then
    match args with
    | [a, k] => (numberArg a).bind (fun a => (numberArg k).map (.br a))
    | _ => none
  else if op = "cmd".toList then
    match args with
    | [.word n] => (instrOfName n).map .cmd
    | _ => none
  else if op = "wait".toList then if args.isEmpty then some .wait else none
  else none

/-- A pseudo-instruction (R77), from its name and its operands. -/
def pseudoOfName (op : List Char) (args : List Word) : Option Pseudo :=
  match args with
  | [] => if op = "cleanup".toList then some .cleanup else if op = "getiv".toList then some .getiv else none
  | [a] => if op = "ld32".toList then some (.ld32 a) else if op = "ld64".toList then some (.ld64 a) else none
  | [a, b] =>
    if op = "keyinit".toList then some (.keyinit a b) else if op = "encb".toList then some (.encb a b)
    else if op = "decb".toList then some (.decb a b) else if op = "setiv".toList then some (.setiv a b)
    else if op = "st32".toList then some (.st32 a b) else none
  | [a, b, c] =>
    if op = "ecbenc".toList then some (.ecbenc a b c) else if op = "ecbdec".toList then some (.ecbdec a b c)
    else if op = "cbcenc".toList then some (.cbcenc a b c) else if op = "cbcdec".toList then some (.cbcdec a b c)
    else if op = "st64".toList then some (.st64 a b c) else if op = "hexenc".toList then some (.hexenc a b c)
    else if op = "hexdec".toList then some (.hexdec a b c) else none
  | _ :: _ :: _ :: _ :: _ => none

/-- The items of a line's tokens: a body, or nothing, then a comment, or nothing. -/
def parseTokens : List Token → Option (List Item)
  | [] => some []
  | [.comment c] => some [.line (.comment (String.ofList c))]
  | .word op :: rest =>
    let args := rest.takeWhile (fun t => match t with | .comment _ => false | _ => true)
    let notes := rest.filterMap (fun t => match t with
      | .comment c => some (Item.line (.comment (String.ofList c)))
      | _ => none)
    match parseLine op args with
    | some l => some (.line l :: notes)
    | none => ((args.mapM wordArg).bind (pseudoOfName op)).map (fun q => .pseudo q :: notes)
  | .quoted _ :: _ => none
  | .comment _ :: _ :: _ => none

/-- The items of one written line. -/
def parseText (line : List Char) : Option (List Item) := (lexLine false [] line).bind parseTokens

/-- The items of a written program, line by line; `none` if a line is not assembly. -/
def parseProgram (lines : List String) : Option (List Item) :=
  (lines.mapM (fun l => parseText l.toList)).map List.flatten

end Sys2Proof.Machine
end

