-- ==== Sys2Proof/WellFormed.lean ====
section
/-! DEFINITION. The checks the spec puts on terms: the platform's constraints of 00_scope.md R7, and the
moves 10_state.md R35, R36 and 20_memory.md R50 give the host. -/

namespace Sys2Proof

/-- A command has no field that could be ill formed: the word has no register and no immediate fields
(30_encoding.md R70, R72), so every term is well formed. What a WORD must satisfy is the decoder's. -/
def Instr.wellFormed : Instr → Bool
  | .keyinit | .cleanup | .encb | .decb | .ecbenc | .ecbdec | .setiv | .getiv
  | .cbcenc | .cbcdec | .ld32 | .st32 | .ld64 | .st64 | .hexenc | .hexdec => true

/-- The constraints of 00_scope.md R7: 64 ≤ BUF_BYTES ≤ 2^31, BASE aligned to 64, and BUF not
overlapping the register window. -/
def Platform.wellFormed (p : Platform) : Bool :=
  decide (Config.minBufBytes ≤ p.bufBytes) && decide (p.bufBytes ≤ Config.maxBufBytes)
    && decide (p.base % 64 = 0)
    && (decide (p.base + Config.windowBytes ≤ p.bufBase) || decide (p.bufBase + p.bufBytes ≤ p.base))

/-- Bus address `a` is an aligned word of a register of 10_state.md R27 (offsets 0x000 to 0x028). -/
def Platform.registerWord (p : Platform) (a : Nat) : Bool :=
  decide (p.base ≤ a) && decide (a - p.base ≤ 0x028) && decide ((a - p.base) % 4 = 0)

/-- Bus address `a` is a byte of BUF (20_memory.md R51). -/
def Platform.bufByte (p : Platform) (a : Nat) : Bool :=
  decide (p.bufBase ≤ a) && decide (a < p.bufBase + p.bufBytes)

/-- The moves R35 and R36 give the host: aligned 32-bit accesses to registers, byte accesses to BUF. -/
def HostOp.wellFormed (p : Platform) : HostOp → Bool
  | .w32 a _ => p.registerWord a
  | .r32 a => p.registerWord a
  | .w8 a _ => p.bufByte a
  | .r8 a => p.bufByte a
  | .poll => true
  | .resetSignal => true

/-- A line whose byte accesses stay in BUF (20_memory.md R50). -/
def Line.wellFormed (p : Platform) : Line → Bool
  | .bw a bytes => decide (a + bytes.length ≤ p.bufBytes)
  | .br a k => decide (a + k ≤ p.bufBytes)
  | .wr _ _ => true
  | .rd _ => true
  | .cmd i => i.wellFormed
  | .wait => true
  | .comment _ => true

end Sys2Proof
end

