-- ==== Sys2Proof/Safety.lean ====
section
/-! DEFINITION. What counts as a good state, a safe step and the end of a run, in the terms the statements
use. -/

namespace Sys2Proof.Machine

/-- Table entry number `e` in the order in which step 3 of the key schedule overwrites them
(40_key_schedule.md R103: "all 18 P-array entries then all 4×256 S-box entries"): P[e] below 18, then
S[0][0], S[0][1] and so on to S[3][255], which is number 1041. -/
def tableEntry (c : Cipher) (e : Nat) : Word :=
  if h : e < 18 then pEntry c ⟨e, h⟩
  else sEntry c (Fin.ofNat 4 ((e - 18) / 256)) (BitVec.ofNat 8 (e - 18))

/-- The tables in the midst of step 3 (R103, "as they stand at that moment, including every entry already
overwritten"): the entries numbered below `filled` are those of `done`, the others those of `start`. -/
def partlyFilled (start done : Cipher) (filled : Nat) : Cipher :=
  { p := Vector.ofFn fun i => if i.val < filled then pEntry done i else pEntry start i
    s := Vector.ofFn fun k => Vector.ofFn fun j =>
      if 18 + 256 * k.val + j.val < filled then (done.s.get k).get j else (start.s.get k).get j }

/-- The fault codes a command can raise (60_exceptions.md R210, column "raised by"). -/
def mayRaise : Instr → List FaultCode
  | .keyinit => [.invalidKeyLength, .bufferBounds]
  | .encb | .decb => [.noKey]
  | .ecbenc | .ecbdec | .cbcenc | .cbcdec => [.noKey, .bufferBounds]
  | .ld32 | .st32 | .ld64 | .st64 | .hexenc | .hexdec => [.bufferBounds]
  | .cleanup | .setiv | .getiv => []

/-- What a latched word and code may be together (R210, column "recorded"): an illegal word with
ILLEGAL_COMMAND, a command's word with a code that command raises. -/
def recordedOk (w : Word) (code : BitVec 4) : Bool :=
  match decode w with
  | .ok i => (mayRaise i).any (fun e => ecodeOf e == code)
  | .error _ => code == ecodeOf .illegalCommand

/-- The latch as 10_state.md R25, R34 and 60_exceptions.md R210 have it: all zero while FAULT = 0, a raised
code with its word while FAULT = 1. -/
def Latch.consistent (l : Latch) : Bool :=
  if l.fault then recordedOk l.fcmd l.ecode else l.ecode == 0 && l.fcmd == 0

/-- The tables are what KEYV says (10_state.md R21, R24): a schedule of a legal key, or all zero. -/
def tablesMatchKeyv (s : State) : Prop :=
  if s.keyv then
    ∃ key : List Byte, Config.minKeyLength ≤ key.length ∧ key.length ≤ Config.maxKeyLength
      ∧ s.cipher = keySchedule key
  else s.cipher = Cipher.zero

/-- The invariant of the machine. -/
structure State.Inv (s : State) : Prop where
  /-- The platform is one R7 allows. -/
  platform : s.plat.wellFormed = true
  /-- BUF's list is in its canonical form. -/
  bufCanonical : Memory.wf s.buf = true
  /-- Only offsets of BUF have been written (20_memory.md R50). -/
  bufInside : Memory.below s.buf s.plat.bufBytes = true
  /-- The fault latch is consistent. -/
  latchOk : s.latch.consistent = true
  /-- P and S are what KEYV says. -/
  tables : tablesMatchKeyv s
  /-- While BUSY = 1 the host is bound to poll (70_reset_and_hazards.md R244). -/
  duty : s.busy = true → s.host.mustPoll = true

/-- The step answers a next state. -/
def safeStep (s : State) : Prop := ∃ t, step s = .next t

/-- The engine acts in this step: a command is pending and its latency has run out. -/
def engineMoves (s : State) : Bool := s.busy && s.latency == 0

/-- "A run is over only when the host has stopped issuing commands and BUSY = 0"
(70_reset_and_hazards.md R243). -/
def runOver (s : State) : Bool := (nextOp s).isNone && !s.busy

/-- "A run that ends with FAULT = 1 is a faulted run, not a normal end" (60_exceptions.md R220). -/
def faultedEnd (s : State) : Bool := runOver s && s.latch.fault

/-- A run that ended with FAULT = 0. -/
def normalEnd (s : State) : Bool := runOver s && !s.latch.fault

end Sys2Proof.Machine
end

