-- ==== Sys2Proof/Certificates/Slice0/Obligations.lean ====
section
/-! DEFINITION. The statements about BFCORE, one definition each, and the few terms they share. Where a
statement quantifies over a state it speaks of every platform, every latency and every host program. -/

open Sys2Proof Sys2Proof.Machine

namespace Sys2Proof.Claims

/-- The command words of 30_encoding.md R73, written out from its table. -/
def listedWords : List (Word × Instr) :=
  [(0x00000001, .keyinit), (0x00000002, .cleanup), (0x00000010, .encb), (0x00000011, .decb),
   (0x00000012, .ecbenc), (0x00000013, .ecbdec), (0x00000020, .setiv), (0x00000021, .getiv),
   (0x00000022, .cbcenc), (0x00000023, .cbcdec), (0x00000030, .ld32), (0x00000031, .st32),
   (0x00000032, .ld64), (0x00000033, .st64), (0x00000034, .hexenc), (0x00000035, .hexdec)]

/-- The commands that need a key (60_exceptions.md R214). -/
def keyedCommands : List Instr := [.encb, .decb, .ecbenc, .ecbdec, .cbcenc, .cbcdec]

/-- SRC, DST and LEN as unsigned numbers (30_encoding.md R71). -/
def src (s : State) : Nat := s.regs.src.toNat
def dst (s : State) : Nat := s.regs.dst.toNat
def len (s : State) : Nat := s.regs.len.toNat

/-- n = LEN − (LEN mod 8) (42_ecb_core.md R137). -/
def wholeBytes (s : State) : Nat := len s - len s % 8

/-- The ranges (offset, length) of BUF a command checks (the command rules' InBounds lines). -/
def checkedRanges (i : Instr) (s : State) : List (Nat × Nat) :=
  match i with
  | .keyinit => [(src s, len s)]
  | .ecbenc | .ecbdec | .cbcenc | .cbcdec => [(src s, wholeBytes s), (dst s, wholeBytes s)]
  | .ld32 => [(src s, 4)]
  | .st32 => [(dst s, 4)]
  | .ld64 => [(src s, 8)]
  | .st64 => [(dst s, 8)]
  | .hexenc => [(src s, len s), (dst s, 2 * len s)]
  | .hexdec => [(src s, 2 * (len s / 2)), (dst s, len s / 2)]
  | .cleanup | .encb | .decb | .setiv | .getiv => []

/-- All ranges the command checks are in bounds, in unbounded integers (20_memory.md R56). -/
def rangesHold (i : Instr) (s : State) : Prop := ∀ r ∈ checkedRanges i s, r.1 + r.2 ≤ s.plat.bufBytes

/-- The bytes a storing command stores to are those from DST on, this many of them. -/
def storedBytes (i : Instr) (s t : State) : Nat :=
  match i with
  | .st32 => 4
  | .st64 => 8
  | .ecbenc | .ecbdec | .cbcenc | .cbcdec => wholeBytes s
  | .hexenc => 2 * len s
  | .hexdec => t.regs.count.toNat
  | .keyinit | .cleanup | .encb | .decb | .setiv | .getiv | .ld32 | .ld64 => 0

/-- Two ranges of BUF share no byte. -/
def apart (a n b m : Nat) : Prop := a + n ≤ b ∨ b + m ≤ a

/-- Source and destination of n bytes each are the same range (in place) or apart. -/
def inPlaceOrApart (a b n : Nat) : Prop := a = b ∨ apart a n b n

/-- The host is under no duty to poll and no command is pending. -/
def hostFree (s : State) : Prop := s.busy = false ∧ s.host.mustPoll = false

/-- A command is pending and its latency has run out, so the engine acts in the next step. That the engine
acts in exactly this step is the model's own schedule (log 4). -/
def enginePending (s : State) : Prop := s.busy = true ∧ s.latency = 0

/-- The latch after a fault with this code, raised by this word (60_exceptions.md R217). -/
def faultedWith (code : BitVec 4) (w : Word) (s : State) : State :=
  { s with latch := { fault := true, ecode := code, fcmd := w } }

end Sys2Proof.Claims

open Sys2Proof.Claims

/-! ## Encoding (30_encoding.md) -/

/-- R73: "A word selects one of these commands iff RSV = 0 and OP is in the table." Over all 2^32 words. -/
def Obligations.WordsDecodeExactlyAsListed : Prop :=
  ∀ (w : Word) (i : Instr), decode w = .ok i ↔ (w, i) ∈ listedWords

/-- A few words read off R73, and the three ways of R74 to be illegal. -/
def Obligations.SampleWordsDecode : Prop :=
  decode 0x00000001 = .ok .keyinit ∧ decode 0x00000010 = .ok .encb ∧ decode 0x00000022 = .ok .cbcenc
    ∧ decode 0x00000035 = .ok .hexdec ∧ decode 0x00000000 = .error .unlistedOp
    ∧ decode 0x00000014 = .error .unlistedOp ∧ decode 0x00000101 = .error .reservedBits

/-- R70, R73: every command's word decodes to the command, its RSV is 0, no other word does, and the table's
own numbering of the bits reads the same. -/
def Obligations.DecodeAndEncodeAgree : Prop :=
  ∀ i : Instr, i.wellFormed = true →
    decode (encode i) = .ok i ∧ rsvField (encode i) = 0 ∧ decodeTableWord 32 (encode i).toNat = some i
      ∧ ∀ w : Word, decode w = .ok i → w = encode i

/-- R76, R77: the lines and the pseudo-instruction as bus operations. That a wait is the one operation `.poll`,
where R76 has repeated reads of BASE + 0x004, is the model's choice (log 3); the first line is the example of the
sentence the spec marks derived (30_encoding.md R78). -/
def Obligations.LinesAssembleToBusOperations : Prop :=
  ∀ (p : Platform) (a : Nat) (b0 b1 : Byte) (v : Word),
    assemble p [.line (.cmd .cbcenc)] = [.w32 (p.base + 0x000) 0x00000022]
      ∧ assemble p [.line (.wr .len v), .line (.rd .count), .line .wait]
        = [.w32 (p.base + 0x010) v, .r32 (p.base + 0x024), .poll]
      ∧ assemble p [.line (.bw a [b0, b1]), .line (.br a 2)]
        = [.w8 (p.bufBase + a) b0, .w8 (p.bufBase + (a + 1)) b1, .r8 (p.bufBase + a + 0), .r8 (p.bufBase + a + 1)]
      ∧ assemble p [.pseudo (.keyinit 0 8)]
        = [.w32 (p.base + 0x008) 0, .w32 (p.base + 0x010) 8, .w32 (p.base + 0x000) 0x00000001, .poll]

/-! ## The invariant -/

/-- The reset state meets the invariant. -/
def Obligations.InvariantHoldsAtReset : Prop := State.reset.Inv

/-- Every step keeps the invariant: the memory's canonical form and range (20_memory.md R50), the fault latch
and its recorded word (60_exceptions.md R210), P and S as a schedule of a legal key or zero as KEYV says
(10_state.md R21, R24), and the host's duty while BUSY = 1 (70_reset_and_hazards.md R244). The forms of
BUF's list and of the duty are the model's own (log 2, log 5). -/
def Obligations.EveryStepKeepsTheInvariant : Prop :=
  ∀ s t : State, s.Inv → step s = .next t → t.Inv

/-! ## Registers and the host's accesses (10_state.md) -/

/-- R29: the fields of STATUS, its reset value, that a write to it is ignored and that reading it changes
nothing but the host. -/
def Obligations.StatusHasItsFields : Prop :=
  ∀ s : State,
    (statusWord s).getLsbD 0 = s.keyv ∧ (statusWord s).getLsbD 1 = s.latch.fault
      ∧ (statusWord s).extractLsb' 2 2 = 0 ∧ (statusWord s).extractLsb' 4 4 = s.latch.ecode
      ∧ (statusWord s).getLsbD 8 = s.busy ∧ (statusWord s).extractLsb' 9 23 = 0
      ∧ statusWord State.reset = 0 ∧ readReg s .status = statusWord s
      ∧ (s.latch.consistent = true → s.latch.fault = false → (statusWord s).extractLsb' 4 4 = 0)
      ∧ (∀ v, writeReg .status v s = s) ∧ ∃ h, hostReadReg .status s = { s with host := h }

/-- R27 to R35: the host's accesses to the register window, as steps of a host that is free to move. A read
records what the register holds and moves the host on, and nothing else changes; what each register holds is the
last clause. Where a read's value is kept is the model's own record (log 6). -/
def Obligations.HostAccessesRegistersByAlignedWords : Prop :=
  ∀ s : State, hostFree s →
    (∀ r v, nextOp s = some (.w32 (s.plat.base + regOffset r) v) → step s = .next (advance (writeReg r v s)))
      ∧ (∀ r, nextOp s = some (.r32 (s.plat.base + regOffset r)) →
          step s = .next (advance (hostReadReg r s))
            ∧ step s = .next
                { s with host := { s.host with seen := readReg s r :: s.host.seen, pc := s.host.pc + 1 } })
      ∧ (∀ r ∈ [Reg.status, .rhi, .rlo, .count, .fcmd], ∀ v, writeReg r v s = s)
      ∧ (∀ off v, off < 64 → (off % 4 ≠ 0 ∨ 0x02C ≤ off) →
          ∀ op ∈ [HostOp.w32 (s.plat.base + off) v, .r32 (s.plat.base + off)],
            nextOp s = some op → ∃ q, step s = .refused q)
      ∧ (∀ off b, off < 64 → ∀ op ∈ [HostOp.w8 (s.plat.base + off) b, .r8 (s.plat.base + off)],
            nextOp s = some op → ∃ q, step s = .refused q)
      ∧ (readReg s .cmd = 0 ∧ readReg s .status = statusWord s ∧ readReg s .src = s.regs.src
          ∧ readReg s .dst = s.regs.dst ∧ readReg s .len = s.regs.len ∧ readReg s .dhi = s.regs.dhi
          ∧ readReg s .dlo = s.regs.dlo ∧ readReg s .rhi = s.regs.rhi ∧ readReg s .rlo = s.regs.rlo
          ∧ readReg s .count = s.regs.count ∧ readReg s .fcmd = s.latch.fcmd)

/-- R36: the host reads and writes single bytes of BUF at BUF_BASE + offset, on a platform R7 allows.
Where a read's value is kept is the model's own record (log 6). -/
def Obligations.HostAccessesBufferByBytes : Prop :=
  ∀ (s : State) (off : Nat), hostFree s → s.plat.wellFormed = true → off < s.plat.bufBytes →
    (∀ b, nextOp s = some (.w8 (s.plat.bufBase + off) b) →
        ∃ t, step s = .next t ∧ readByte t off = b ∧ (∀ a, a ≠ off → readByte t a = readByte s a)
          ∧ t.regs = s.regs ∧ t.cipher = s.cipher ∧ t.iv = s.iv ∧ t.keyv = s.keyv ∧ t.latch = s.latch
          ∧ t.busy = s.busy)
      ∧ (nextOp s = some (.r8 (s.plat.bufBase + off)) →
        ∃ t, step s = .next t ∧ t.host.seen = (readByte s off).setWidth 32 :: s.host.seen
          ∧ t = { s with host := t.host })

/-- R27, R30, R31: an operand register reads back what the host wrote, no other register reads differently, and
everything but the registers (P, S, IV, KEYV, the latch, BUSY, BUF, the platform, the host) is as it was; the map
has the offsets of R27. -/
def Obligations.OperandRegistersReadBack : Prop :=
  ∀ (s : State) (v : Word), ∀ r ∈ [Reg.src, .dst, .len, .dhi, .dlo],
    readReg (writeReg r v s) r = v ∧ (∀ r', r' ≠ r → readReg (writeReg r v s) r' = readReg s r')
      ∧ writeReg r v s = { s with regs := (writeReg r v s).regs }
      ∧ ([Reg.cmd, .status, .src, .dst, .len, .dhi, .dlo, .rhi, .rlo, .count, .fcmd].map regOffset
          = [0x000, 0x004, 0x008, 0x00C, 0x010, 0x014, 0x018, 0x01C, 0x020, 0x024, 0x028])

/-- R30 to R33: which commands write which registers. SRC, DST and LEN: none. DHI and DLO: only CLEANUP.
RHI and RLO: ENCB, DECB, GETIV, LD32, LD64, CLEANUP. COUNT: the six buffer commands that return a count. -/
def Obligations.CommandsWriteOnlyTheirRegisters : Prop :=
  ∀ (i : Instr) (s t : State), exec i s = .next t →
    (t.regs.src = s.regs.src ∧ t.regs.dst = s.regs.dst ∧ t.regs.len = s.regs.len)
      ∧ (i ≠ .cleanup → t.regs.dhi = s.regs.dhi ∧ t.regs.dlo = s.regs.dlo)
      ∧ (i ∉ [Instr.encb, .decb, .getiv, .ld32, .ld64, .cleanup] →
          t.regs.rhi = s.regs.rhi ∧ t.regs.rlo = s.regs.rlo)
      ∧ (i ∉ [Instr.ecbenc, .ecbdec, .cbcenc, .cbcdec, .hexenc, .hexdec] → t.regs.count = s.regs.count)

/-! ## The step (10_state.md R26, R28; 70_reset_and_hazards.md) -/

/-- R28, first half: a CMD write latches the word, sets BUSY and the host's duty, and changes nothing else of
the engine; a read of CMD gives 0. The latched word, the latency and the host's record are the model's own form
(log 3, log 4, log 5, log 10). -/
def Obligations.CmdWriteStartsACommand : Prop :=
  ∀ (s : State) (w : Word), hostFree s → nextOp s = some (.w32 s.plat.base w) →
    readReg s .cmd = 0 ∧
    ∃ t, step s = .next t ∧ t.busy = true ∧ t.cmd = w ∧ t.host.mustPoll = true
      ∧ t.latency = s.schedule.headD 0 ∧ t.host.pc = s.host.pc + 1
      ∧ t.cipher = s.cipher ∧ t.iv = s.iv ∧ t.keyv = s.keyv ∧ t.latch = s.latch ∧ t.regs = s.regs
      ∧ t.buf = s.buf ∧ t.epoch = s.epoch ∧ t.plat = s.plat

/-- R28, second half: when the pending word decodes to a command, the engine's step is that command's
meaning, ended with BUSY <- 0; nothing else is added. Every command answers a next state. When the engine's
turn comes is the model's schedule (log 4). -/
def Obligations.StepRunsThePendingCommand : Prop :=
  ∀ (s : State) (i : Instr), enginePending s → decode s.cmd = .ok i →
    ∃ t, exec i s = .next t ∧ step s = .next { t with busy := false }

/-- R211: "ILLEGAL_COMMAND is raised when FAULT = 0 and the host writes CMD with a word that rule R73 of
30_encoding.md does not list. That means OP = 0x00, an unlisted OP, or RSV ≠ 0." -/
def Obligations.IllegalWordRaisesIllegalCommand : Prop :=
  ∀ s : State, enginePending s → s.latch.fault = false →
    (rsvField s.cmd ≠ 0 ∨ ∀ i, (s.cmd, i) ∉ listedWords) →
    step s = .next { faultedWith 1 s.cmd s with busy := false }

/-- R244: from a CMD write until STATUS has been read with BUSY = 0 every move of the host but a STATUS read
is refused, while STATUS reads and the platform's reset go on. The duty's literal end and the reset as an
operation are the model's reading (log 5, log 8). -/
def Obligations.HostMayOnlyReadStatusWhileBusy : Prop :=
  ∀ (s : State) (op : HostOp), (s.busy = true ∨ s.host.mustPoll = true) → ¬ enginePending s →
    nextOp s = some op →
    ((∀ a v, op = .w32 a v → step s = .refused .busyHazard)
      ∧ (∀ a, a ≠ s.plat.base + 0x004 → op = .r32 a → step s = .refused .busyHazard)
      ∧ (∀ a b, op = .w8 a b → step s = .refused .busyHazard)
      ∧ (∀ a, op = .r8 a → step s = .refused .busyHazard))
    ∧ (op = .r32 (s.plat.base + 0x004) ∨ op = .poll →
        ∃ t, step s = .next t ∧ t.host.seen = statusWord s :: s.host.seen
          ∧ (t.host.mustPoll = true ↔ s.host.mustPoll = true ∧ s.busy = true))
    ∧ (op = .resetSignal → ∃ t, step s = .next t ∧ t.busy = false ∧ t.host.mustPoll = false)

/-- R249, 00_scope.md R7: "every command completes in finite time". A host that polls, or that has nothing
more to do, sees the pending command done after its latency and one more step. Counting the latency in steps is
the model's choice (log 4). -/
def Obligations.PendingCommandCompletes : Prop :=
  ∀ s : State, s.busy = true → (nextOp s = some .poll ∨ nextOp s = none) →
    ∃ t, Host.Core.run core (s.latency + 1) s = .next t ∧ t.busy = false ∧ t.host.pc = s.host.pc

/-- R240, R241 with 10_state.md R41: the reset event, at any time the engine is not just acting, aborts the
command and sets every element to its reset value; BUF is drawn anew. The platform and the host's program
stay. Reset as an operation and the free contents of BUF are the model's choice (log 8, log 2). -/
def Obligations.ResetClearsEveryElement : Prop :=
  ∀ s : State, ¬ enginePending s → nextOp s = some .resetSignal →
    ∃ t, step s = .next t ∧ (∀ k, pEntry t.cipher k = 0) ∧ (∀ k j, sEntry t.cipher k j = 0) ∧ t.iv = 0
      ∧ t.keyv = false ∧ t.latch = ⟨false, 0, 0⟩ ∧ t.busy = false ∧ (∀ r, readReg t r = 0)
      ∧ (∀ a, readByte t a = Config.freeByte (s.epoch + 1) a)
      ∧ t.plat = s.plat ∧ t.host.program = s.host.program ∧ t.host.pc = s.host.pc + 1

/-- 10_state.md R41: the value of every element in the reset state; a byte of BUF is a free value
(log 2). -/
def Obligations.ResetStateIsAllZero : Prop :=
  (∀ k, pEntry State.reset.cipher k = 0) ∧ (∀ k j, sEntry State.reset.cipher k j = 0) ∧ State.reset.iv = 0
    ∧ State.reset.keyv = false ∧ State.reset.latch = ⟨false, 0, 0⟩ ∧ State.reset.busy = false
    ∧ (∀ r, readReg State.reset r = 0)
    ∧ ∀ a, readByte State.reset a = Config.freeByte State.reset.epoch a

/-- 10_state.md R21, R22: "Only KEYINIT and CLEANUP write P", and S with it; the one other cause is the reset
event (R41, log 8). -/
def Obligations.OnlyKeyCommandsAndResetWriteTables : Prop :=
  ∀ s t : State, step s = .next t → t.cipher ≠ s.cipher →
    (enginePending s ∧ (s.cmd = 0x00000001 ∨ s.cmd = 0x00000002))
      ∨ (¬ enginePending s ∧ nextOp s = some .resetSignal)

/-- 10_state.md R25, 60_exceptions.md R220: "Only reset … clears FAULT, ECODE and FCMD", and nothing else
changes a latched fault (log 8). -/
def Obligations.OnlyResetClearsTheFaultLatch : Prop :=
  ∀ s t : State, step s = .next t → s.latch.fault = true →
    t.latch = s.latch ∨ (¬ enginePending s ∧ nextOp s = some .resetSignal ∧ t.latch = ⟨false, 0, 0⟩)

/-- 10_state.md R41: P and S are "not observable: KEYV = 0 blocks every reader". Two machines that differ in
P and S only, with no key loaded, take steps that differ in P and S only. This is the model's
formal reading of that ground. -/
def Obligations.TablesWithoutAKeyAreUnobservable : Prop :=
  ∀ (s t : State) (c : Cipher), s.keyv = false → step s = .next t →
    ∃ t', step { s with cipher := c } = .next t' ∧ { t' with cipher := t.cipher } = t

/-! ## Faults (60_exceptions.md) -/

/-- R219: the faulted state. A pending word other than CLEANUP's has no effect but the end of BUSY; CLEANUP
is performed in full and leaves the latch; host writes and BUF accesses still work. When the engine's turn comes
is the model's schedule (log 4), and where a byte read's value is kept, zero-extended and the latest first, is the
model's own record (log 6). -/
def Obligations.FaultedStateIgnoresCommands : Prop :=
  ∀ s : State, s.latch.fault = true →
    (enginePending s → s.cmd ≠ 0x00000002 → step s = .next { s with busy := false })
      ∧ (enginePending s → s.cmd = 0x00000002 →
          ∃ t, exec .cleanup { s with latch := ⟨false, 0, 0⟩ } = .next t
            ∧ step s = .next { t with latch := s.latch, busy := false })
      ∧ (hostFree s → ∀ r ∈ [Reg.src, .dst, .len, .dhi, .dlo], ∀ v,
          nextOp s = some (.w32 (s.plat.base + regOffset r) v) →
          ∃ t, step s = .next t ∧ readReg t r = v ∧ t.latch = s.latch)
      ∧ (hostFree s → s.plat.wellFormed = true → ∀ off, off < s.plat.bufBytes →
          (∀ b, nextOp s = some (.w8 (s.plat.bufBase + off) b) → ∃ t, step s = .next t ∧ readByte t off = b)
          ∧ (nextOp s = some (.r8 (s.plat.bufBase + off)) →
              ∃ t, step s = .next t ∧ t.host.seen = (readByte s off).setWidth 32 :: s.host.seen))

/-- R217, R218: fault entry. When the engine's step latches a fault, the whole next state is the old one with
FAULT, ECODE and FCMD written (and BUSY ended): nothing of the command has happened. -/
def Obligations.FaultEntryWritesOnlyTheLatch : Prop :=
  ∀ s t : State, enginePending s → s.latch.fault = false → step s = .next t → t.latch.fault = true →
    ∃ code : BitVec 4, code ∈ [(1 : BitVec 4), 2, 3, 4] ∧ t = { faultedWith code s.cmd s with busy := false }

/-- R216: the checks in their order, the first that applies is the one taken. -/
def Obligations.FirstFailingCheckIsReported : Prop :=
  ∀ s t : State, enginePending s → step s = .next t →
    (s.latch.fault = true → t.latch = s.latch)
      ∧ (s.latch.fault = false → (∀ i, decode s.cmd ≠ .ok i) → t.latch = ⟨true, 1, s.cmd⟩)
      ∧ (∀ i, s.latch.fault = false → decode s.cmd = .ok i →
          (i ∈ keyedCommands → s.keyv = false → t.latch = ⟨true, 4, s.cmd⟩)
            ∧ (i = .keyinit → (len s < 1 ∨ 56 < len s) → t.latch = ⟨true, 2, s.cmd⟩)
            ∧ ((i ∈ keyedCommands → s.keyv = true) → (i = .keyinit → 1 ≤ len s ∧ len s ≤ 56) →
                (¬ rangesHold i s → t.latch = ⟨true, 3, s.cmd⟩) ∧ (rangesHold i s → t.latch = s.latch)))

/-- R214: the six cipher commands with KEYV = 0, whatever their operands. -/
def Obligations.CipherCommandWithoutKeyFaults : Prop :=
  ∀ (s : State) (i : Instr), s.latch.fault = false → s.keyv = false → i ∈ keyedCommands →
    exec i s = .next (faultedWith 4 (encode i) s)

/-- R213 with 20_memory.md R56: a range out of bounds, checked in unbounded integers, faults with nothing
changed but the latch. -/
def Obligations.RangeOutOfBoundsFaults : Prop :=
  ∀ (s : State) (i : Instr), s.latch.fault = false → (i ∈ keyedCommands → s.keyv = true) →
    (i = .keyinit → 1 ≤ len s ∧ len s ≤ 56) → (∃ r ∈ checkedRanges i s, s.plat.bufBytes < r.1 + r.2) →
    exec i s = .next (faultedWith 3 (encode i) s)

/-! ## Key schedule and clean-up (40_key_schedule.md, 41_pi_constants.md) -/

/-- R105: KEYINIT. -/
def Obligations.KeyinitLoadsTheSchedule : Prop :=
  ∀ s : State,
    decode 0x00000001 = .ok .keyinit
      ∧ (s.latch.fault = true → exec .keyinit s = .next s)
      ∧ (s.latch.fault = false → (len s < 1 ∨ 56 < len s) →
          exec .keyinit s = .next (faultedWith 2 0x00000001 s))
      ∧ (s.latch.fault = false → 1 ≤ len s → len s ≤ 56 → s.plat.bufBytes < src s + len s →
          exec .keyinit s = .next (faultedWith 3 0x00000001 s))
      ∧ (s.latch.fault = false → 1 ≤ len s → len s ≤ 56 → src s + len s ≤ s.plat.bufBytes →
          exec .keyinit s = .next
            { s with
              cipher := keySchedule ((List.range (len s)).map (fun i => readByte s (src s + i)))
              iv := 0
              keyv := true })

/-- R107: CLEANUP, from every state, also a faulted one. -/
def Obligations.CleanupZeroesTheSecrets : Prop :=
  decode 0x00000002 = .ok .cleanup ∧ ∀ s : State, ∃ t, exec .cleanup s = .next t
    ∧ (∀ k, pEntry t.cipher k = 0) ∧ (∀ k j, sEntry t.cipher k j = 0) ∧ t.iv = 0 ∧ t.keyv = false
    ∧ t.regs = { s.regs with dhi := 0, dlo := 0, rhi := 0, rlo := 0 }
    ∧ t = { s with cipher := t.cipher, iv := t.iv, keyv := t.keyv, regs := t.regs }

/-- R102: step 2 of the key schedule in closed form. P[i] takes in the four key bytes 4i to 4i+3 counted
cyclically, big-endian and unsigned; S stays. -/
def Obligations.KeyIsMixedCyclicallyBigEndian : Prop :=
  ∀ (key : List Byte) (c : Cipher) (i : Fin 18), key ≠ [] →
    pEntry (mixKey key c) i = pEntry c i ^^^
        be32 (key.getD ((4 * i.val) % key.length) 0) (key.getD ((4 * i.val + 1) % key.length) 0)
          (key.getD ((4 * i.val + 2) % key.length) 0) (key.getD ((4 * i.val + 3) % key.length) 0)
      ∧ (mixKey key c).s = c.s

/-- R103: the schedule's first two entries are the first encryption, of the all-zero block under the tables
of step 2, and every later pair, through P and then S[0] to S[3], is the encryption of the pair before it under
the tables as they stand then: entries already overwritten as in the finished schedule, the others as step 2 left
them. `tableEntry` numbers the entries in R103's order, as the second and third clause say. That Hi goes to the
lower-numbered entry and that the pairs are 521 is the sentence the spec marks derived. -/
def Obligations.ScheduleStartsWithTheEncryptedZeroBlock : Prop :=
  ∀ key : List Byte,
    (pEntry (keySchedule key) 0, pEntry (keySchedule key) 1)
      = encryptBlock (mixKey key Cipher.initial) (0, 0)
      ∧ (∀ i : Fin 18, tableEntry (keySchedule key) i.val = pEntry (keySchedule key) i)
      ∧ (∀ (k : Fin 4) (j : Byte),
          tableEntry (keySchedule key) (18 + 256 * k.val + j.toNat) = sEntry (keySchedule key) k j)
      ∧ ∀ n < 521,
          (tableEntry (keySchedule key) (2 * n), tableEntry (keySchedule key) (2 * n + 1))
            = encryptBlock (partlyFilled (mixKey key Cipher.initial) (keySchedule key) (2 * n))
                (if n = 0 then (0, 0)
                 else (tableEntry (keySchedule key) (2 * n - 2), tableEntry (keySchedule key) (2 * n - 1)))

/-- The spec's own inference (40_key_schedule.md R104, marked derived): "Two keys give the same schedule when
their cyclic byte streams agree on the first 72 bytes", and K
and K||K are such keys. -/
def Obligations.EqualKeyStreamsGiveEqualSchedules : Prop :=
  (∀ k1 k2 : List Byte, 1 ≤ k1.length → k1.length ≤ 56 → 1 ≤ k2.length → k2.length ≤ 56 →
    (∀ j < 72, k1.getD (j % k1.length) 0 = k2.getD (j % k2.length) 0) → keySchedule k1 = keySchedule k2)
    ∧ ∀ k : List Byte, 1 ≤ k.length → k.length ≤ 28 → keySchedule (k ++ k) = keySchedule k

/-- The spec's own computation (41_pi_constants.md R127, marked derived): the spot values, F(0) and
EncryptBlock(0, 0) on the tables of π. -/
def Obligations.PiTablesHaveTheSpotValues : Prop :=
  pEntry Cipher.initial 0 = 0x243F6A88 ∧ pEntry Cipher.initial 17 = 0x8979FB1B
    ∧ sEntry Cipher.initial 0 0 = 0xD1310BA6 ∧ sEntry Cipher.initial 0 255 = 0x6E85076A
    ∧ sEntry Cipher.initial 1 0 = 0x4B7A70E9 ∧ sEntry Cipher.initial 2 0 = 0xE93D5A68
    ∧ sEntry Cipher.initial 3 0 = 0x3A39CE37 ∧ sEntry Cipher.initial 3 255 = 0x3AC372E6
    ∧ roundF Cipher.initial 0x00000000 = 0x2FCFF51E
    ∧ encryptBlock Cipher.initial (0, 0) = (0x706D9FCC, 0x1792D23A)

/-! ## ECB core (42_ecb_core.md) -/

/-- R130: F, as sums modulo 2^32 of the entries the four bytes of x select, most significant byte first. -/
def Obligations.RoundFunctionIsAsGiven : Prop :=
  ∀ (c : Cipher) (x : Word),
    (roundF c x).toNat =
      ((((sEntry c 0 (BitVec.ofNat 8 (x.toNat / 2 ^ 24))).toNat
            + (sEntry c 1 (BitVec.ofNat 8 (x.toNat / 2 ^ 16))).toNat) % 2 ^ 32
          ^^^ (sEntry c 2 (BitVec.ofNat 8 (x.toNat / 2 ^ 8))).toNat)
        + (sEntry c 3 (BitVec.ofNat 8 x.toNat)).toNat) % 2 ^ 32

/-- The spec's own inference (42_ecb_core.md R133, marked derived): "DecryptBlock(EncryptBlock(L, R)) = (L, R)
and EncryptBlock(DecryptBlock(L, R)) = (L, R)", for any
table contents. -/
def Obligations.DecryptAndEncryptInvertEachOther : Prop :=
  ∀ (c : Cipher) (b : Word × Word),
    decryptBlock c (encryptBlock c b) = b ∧ encryptBlock c (decryptBlock c b) = b

/-- The spec's own inference (42_ecb_core.md R141, marked derived): EncryptBlock equals the textbook formulation. -/
def Obligations.TextbookFormulationAgrees : Prop :=
  ∀ (c : Cipher) (b : Word × Word), encryptBlock c b = textbookEncrypt c b

/-- R135: ENCB. -/
def Obligations.EncbEncryptsTheRegisterBlock : Prop :=
  ∀ s : State,
    decode 0x00000010 = .ok .encb
      ∧ (s.latch.fault = true → exec .encb s = .next s)
      ∧ (s.latch.fault = false → s.keyv = false → exec .encb s = .next (faultedWith 4 0x00000010 s))
      ∧ (s.latch.fault = false → s.keyv = true →
          exec .encb s = .next
            { s with
              regs := { s.regs with
                rhi := (encryptBlock s.cipher (s.regs.dhi, s.regs.dlo)).1
                rlo := (encryptBlock s.cipher (s.regs.dhi, s.regs.dlo)).2 } })

/-- R136: DECB. -/
def Obligations.DecbDecryptsTheRegisterBlock : Prop :=
  ∀ s : State,
    decode 0x00000011 = .ok .decb
      ∧ (s.latch.fault = true → exec .decb s = .next s)
      ∧ (s.latch.fault = false → s.keyv = false → exec .decb s = .next (faultedWith 4 0x00000011 s))
      ∧ (s.latch.fault = false → s.keyv = true →
          exec .decb s = .next
            { s with
              regs := { s.regs with
                rhi := (decryptBlock s.cipher (s.regs.dhi, s.regs.dlo)).1
                rlo := (decryptBlock s.cipher (s.regs.dhi, s.regs.dlo)).2 } })

/-- R138: ECBENC, its loop as the rule writes it, for every overlap of the ranges. -/
def Obligations.EcbencEncryptsBlocksInOrder : Prop :=
  ∀ s : State,
    decode 0x00000012 = .ok .ecbenc
      ∧ (s.latch.fault = true → exec .ecbenc s = .next s)
      ∧ (s.latch.fault = false → s.keyv = false → exec .ecbenc s = .next (faultedWith 4 0x00000012 s))
      ∧ (s.latch.fault = false → s.keyv = true →
          (s.plat.bufBytes < src s + wholeBytes s ∨ s.plat.bufBytes < dst s + wholeBytes s) →
          exec .ecbenc s = .next (faultedWith 3 0x00000012 s))
      ∧ (s.latch.fault = false → s.keyv = true →
          src s + wholeBytes s ≤ s.plat.bufBytes → dst s + wholeBytes s ≤ s.plat.bufBytes →
          ∃ u, u = (List.range (wholeBytes s / 8)).foldl
              (fun u b => write64 (dst s + 8 * b) (encrypt64 u.cipher (read64 u (src s + 8 * b))) u) s
            ∧ exec .ecbenc s = .next { u with regs := { u.regs with count := BitVec.ofNat 32 (wholeBytes s) } })

/-- R139: ECBDEC, its loop as the rule writes it. -/
def Obligations.EcbdecDecryptsBlocksInOrder : Prop :=
  ∀ s : State,
    decode 0x00000013 = .ok .ecbdec
      ∧ (s.latch.fault = true → exec .ecbdec s = .next s)
      ∧ (s.latch.fault = false → s.keyv = false → exec .ecbdec s = .next (faultedWith 4 0x00000013 s))
      ∧ (s.latch.fault = false → s.keyv = true →
          (s.plat.bufBytes < src s + wholeBytes s ∨ s.plat.bufBytes < dst s + wholeBytes s) →
          exec .ecbdec s = .next (faultedWith 3 0x00000013 s))
      ∧ (s.latch.fault = false → s.keyv = true →
          src s + wholeBytes s ≤ s.plat.bufBytes → dst s + wholeBytes s ≤ s.plat.bufBytes →
          ∃ u, u = (List.range (wholeBytes s / 8)).foldl
              (fun u b => write64 (dst s + 8 * b) (decrypt64 u.cipher (read64 u (src s + 8 * b))) u) s
            ∧ exec .ecbdec s = .next { u with regs := { u.regs with count := BitVec.ofNat 32 (wholeBytes s) } })

/-- 20_memory.md R66, 70_reset_and_hazards.md R248: in place or with ranges apart, every destination block is
the encryption (decryption) of the source block as it was before the command. -/
def Obligations.EcbInPlaceAndApartGiveTheSameBlocks : Prop :=
  ∀ s : State, s.latch.fault = false → s.keyv = true →
    src s + wholeBytes s ≤ s.plat.bufBytes → dst s + wholeBytes s ≤ s.plat.bufBytes →
    inPlaceOrApart (src s) (dst s) (wholeBytes s) →
    (∃ t, exec .ecbenc s = .next t ∧ ∀ b, 8 * b < wholeBytes s →
        read64 t (dst s + 8 * b) = encrypt64 s.cipher (read64 s (src s + 8 * b)))
      ∧ (∃ t, exec .ecbdec s = .next t ∧ ∀ b, 8 * b < wholeBytes s →
        read64 t (dst s + 8 * b) = decrypt64 s.cipher (read64 s (src s + 8 * b)))

/-- R139 corner case: "ECBDEC after ECBENC over the same n bytes, with the same key, restores the plaintext",
the second command decrypting the first one's output in place. -/
def Obligations.EcbRoundTripRestoresThePlaintext : Prop :=
  ∀ s : State, s.latch.fault = false → s.keyv = true →
    src s + wholeBytes s ≤ s.plat.bufBytes → dst s + wholeBytes s ≤ s.plat.bufBytes →
    inPlaceOrApart (src s) (dst s) (wholeBytes s) →
    ∃ t u, exec .ecbenc s = .next t
      ∧ exec .ecbdec { t with regs := { t.regs with src := s.regs.dst } } = .next u
      ∧ (∀ j < wholeBytes s, readByte u (dst s + j) = readByte s (src s + j)) ∧ u.iv = s.iv

/-! ## CBC and the IV register (43_cbc.md) -/

/-- R161: SETIV, with and without a key. -/
def Obligations.SetivLoadsTheIvRegister : Prop :=
  ∀ s : State,
    decode 0x00000020 = .ok .setiv
      ∧ (s.latch.fault = true → exec .setiv s = .next s)
      ∧ (s.latch.fault = false → ∃ t, exec .setiv s = .next t ∧ t = { s with iv := t.iv }
          ∧ t.iv.toNat = s.regs.dhi.toNat * 2 ^ 32 + s.regs.dlo.toNat)

/-- R162: GETIV, with and without a key. -/
def Obligations.GetivReadsTheIvRegister : Prop :=
  ∀ s : State,
    decode 0x00000021 = .ok .getiv
      ∧ (s.latch.fault = true → exec .getiv s = .next s)
      ∧ (s.latch.fault = false → ∃ t, exec .getiv s = .next t
          ∧ t = { s with regs := { s.regs with rhi := t.regs.rhi, rlo := t.regs.rlo } }
          ∧ t.regs.rhi.toNat * 2 ^ 32 + t.regs.rlo.toNat = s.iv.toNat)

/-- R163: CBCENC, its loop as the rule writes it, for every overlap of the ranges. -/
def Obligations.CbcencEncryptsBlocksInOrder : Prop :=
  ∀ s : State,
    decode 0x00000022 = .ok .cbcenc
      ∧ (s.latch.fault = true → exec .cbcenc s = .next s)
      ∧ (s.latch.fault = false → s.keyv = false → exec .cbcenc s = .next (faultedWith 4 0x00000022 s))
      ∧ (s.latch.fault = false → s.keyv = true →
          (s.plat.bufBytes < src s + wholeBytes s ∨ s.plat.bufBytes < dst s + wholeBytes s) →
          exec .cbcenc s = .next (faultedWith 3 0x00000022 s))
      ∧ (s.latch.fault = false → s.keyv = true →
          src s + wholeBytes s ≤ s.plat.bufBytes → dst s + wholeBytes s ≤ s.plat.bufBytes →
          ∃ u, u = (List.range (wholeBytes s / 8)).foldl
              (fun u b =>
                { write64 (dst s + 8 * b) (encrypt64 u.cipher (read64 u (src s + 8 * b) ^^^ u.iv)) u with
                  iv := encrypt64 u.cipher (read64 u (src s + 8 * b) ^^^ u.iv) }) s
            ∧ exec .cbcenc s = .next { u with regs := { u.regs with count := BitVec.ofNat 32 (wholeBytes s) } })

/-- R164: CBCDEC, its loop as the rule writes it: the raw ciphertext read is the next chaining value. -/
def Obligations.CbcdecDecryptsBlocksInOrder : Prop :=
  ∀ s : State,
    decode 0x00000023 = .ok .cbcdec
      ∧ (s.latch.fault = true → exec .cbcdec s = .next s)
      ∧ (s.latch.fault = false → s.keyv = false → exec .cbcdec s = .next (faultedWith 4 0x00000023 s))
      ∧ (s.latch.fault = false → s.keyv = true →
          (s.plat.bufBytes < src s + wholeBytes s ∨ s.plat.bufBytes < dst s + wholeBytes s) →
          exec .cbcdec s = .next (faultedWith 3 0x00000023 s))
      ∧ (s.latch.fault = false → s.keyv = true →
          src s + wholeBytes s ≤ s.plat.bufBytes → dst s + wholeBytes s ≤ s.plat.bufBytes →
          ∃ u, u = (List.range (wholeBytes s / 8)).foldl
              (fun u b =>
                { write64 (dst s + 8 * b) (decrypt64 u.cipher (read64 u (src s + 8 * b)) ^^^ u.iv) u with
                  iv := read64 u (src s + 8 * b) }) s
            ∧ exec .cbcdec s = .next { u with regs := { u.regs with count := BitVec.ofNat 32 (wholeBytes s) } })

/-- R160, R163, R164: in place or with ranges apart, the chaining: block b goes with the initial IV for b = 0
and with ciphertext block b − 1 after it, and the IV ends as the last ciphertext block. -/
def Obligations.CbcChainsThroughTheCiphertext : Prop :=
  ∀ s : State, s.latch.fault = false → s.keyv = true →
    src s + wholeBytes s ≤ s.plat.bufBytes → dst s + wholeBytes s ≤ s.plat.bufBytes →
    inPlaceOrApart (src s) (dst s) (wholeBytes s) →
    (∃ t, exec .cbcenc s = .next t
        ∧ (∀ b, 8 * b < wholeBytes s → read64 t (dst s + 8 * b) =
            encrypt64 s.cipher (read64 s (src s + 8 * b)
              ^^^ (if b = 0 then s.iv else read64 t (dst s + 8 * (b - 1)))))
        ∧ t.iv = if wholeBytes s = 0 then s.iv else read64 t (dst s + wholeBytes s - 8))
      ∧ (∃ t, exec .cbcdec s = .next t
        ∧ (∀ b, 8 * b < wholeBytes s → read64 t (dst s + 8 * b) =
            decrypt64 s.cipher (read64 s (src s + 8 * b))
              ^^^ (if b = 0 then s.iv else read64 s (src s + 8 * (b - 1))))
        ∧ t.iv = if wholeBytes s = 0 then s.iv else read64 s (src s + wholeBytes s - 8))

/-- R164 corner case, 90_conflicts.md C5: "With a wrong initial IV only the first plaintext block is wrong: it
is off by the XOR of the two IVs", for every overlap that keeps the two runs' reads equal (in place or
apart). -/
def Obligations.WrongIvSpoilsOnlyTheFirstBlock : Prop :=
  ∀ (s : State) (wrong : DWord), s.latch.fault = false → s.keyv = true → 8 ≤ wholeBytes s →
    src s + wholeBytes s ≤ s.plat.bufBytes → dst s + wholeBytes s ≤ s.plat.bufBytes →
    inPlaceOrApart (src s) (dst s) (wholeBytes s) →
    ∃ t u, exec .cbcdec s = .next t ∧ exec .cbcdec { s with iv := wrong } = .next u
      ∧ read64 u (dst s) = read64 t (dst s) ^^^ s.iv ^^^ wrong
      ∧ (∀ b, 1 ≤ b → 8 * b < wholeBytes s → read64 u (dst s + 8 * b) = read64 t (dst s + 8 * b))
      ∧ u.iv = t.iv

/-- R163 corner case: "encrypting 16 bytes in one command and in two 8-byte commands gives the same ciphertext
and the same final IV", for any split into whole blocks and any overlap. -/
def Obligations.CbcencSplitsAcrossCommands : Prop :=
  ∀ (s : State) (l1 l2 : Word), s.latch.fault = false → s.keyv = true →
    l1.toNat % 8 = 0 → l2.toNat % 8 = 0 → len s = l1.toNat + l2.toNat →
    src s + len s ≤ s.plat.bufBytes → dst s + len s ≤ s.plat.bufBytes → s.plat.bufBytes < 2 ^ 32 →
    ∃ t u v, exec .cbcenc s = .next t
      ∧ exec .cbcenc { s with regs := { s.regs with len := l1 } } = .next u
      ∧ exec .cbcenc { u with regs := { u.regs with
            src := s.regs.src + l1, dst := s.regs.dst + l1, len := l2 } } = .next v
      ∧ (∀ a, readByte v a = readByte t a) ∧ v.iv = t.iv

/-- The spec's own inference (43_cbc.md R166, marked derived): "CBCDEC of the output of CBCENC returns the
plaintext. Both commands leave the IV at the same value,
the last ciphertext block." -/
def Obligations.CbcRoundTripRestoresThePlaintext : Prop :=
  ∀ (s : State) (out : Word), s.latch.fault = false → s.keyv = true →
    src s + wholeBytes s ≤ s.plat.bufBytes → dst s + wholeBytes s ≤ s.plat.bufBytes →
    out.toNat + wholeBytes s ≤ s.plat.bufBytes →
    inPlaceOrApart (src s) (dst s) (wholeBytes s) → inPlaceOrApart (dst s) out.toNat (wholeBytes s) →
    ∃ t u, exec .cbcenc s = .next t
      ∧ exec .cbcdec { t with iv := s.iv, regs := { t.regs with src := s.regs.dst, dst := out } } = .next u
      ∧ (∀ j < wholeBytes s, readByte u (out.toNat + j) = readByte s (src s + j))
      ∧ u.iv = t.iv ∧ (wholeBytes s ≠ 0 → t.iv = read64 t (dst s + wholeBytes s - 8))

/-! ## Binary codec (44_codec.md, 20_memory.md R52, R54) -/

/-- R181: LD32, the big-endian value of the four bytes in RLO and 0 in RHI. -/
def Obligations.Ld32ReadsABigEndianWord : Prop :=
  ∀ s : State,
    decode 0x00000030 = .ok .ld32
      ∧ (s.latch.fault = true → exec .ld32 s = .next s)
      ∧ (s.latch.fault = false → s.plat.bufBytes < src s + 4 →
          exec .ld32 s = .next (faultedWith 3 0x00000030 s))
      ∧ (s.latch.fault = false → src s + 4 ≤ s.plat.bufBytes →
          ∃ t, exec .ld32 s = .next t ∧ t = { s with regs := { s.regs with rhi := 0, rlo := t.regs.rlo } }
            ∧ t.regs.rlo.toNat = (readByte s (src s)).toNat * 2 ^ 24 + (readByte s (src s + 1)).toNat * 2 ^ 16
                + (readByte s (src s + 2)).toNat * 2 ^ 8 + (readByte s (src s + 3)).toNat)

/-- R183: LD64, the eight bytes' big-endian value, high half in RHI. -/
def Obligations.Ld64ReadsABigEndianBlock : Prop :=
  ∀ s : State,
    decode 0x00000032 = .ok .ld64
      ∧ (s.latch.fault = true → exec .ld64 s = .next s)
      ∧ (s.latch.fault = false → s.plat.bufBytes < src s + 8 →
          exec .ld64 s = .next (faultedWith 3 0x00000032 s))
      ∧ (s.latch.fault = false → src s + 8 ≤ s.plat.bufBytes →
          ∃ t, exec .ld64 s = .next t
            ∧ t = { s with regs := { s.regs with rhi := t.regs.rhi, rlo := t.regs.rlo } }
            ∧ t.regs.rhi.toNat * 2 ^ 32 + t.regs.rlo.toNat
              = (List.range 8).foldl (fun v i => v * 256 + (readByte s (src s + i)).toNat) 0)

/-- R182: ST32, DLO's bytes from DST on, the most significant first; nothing else changes. -/
def Obligations.St32WritesABigEndianWord : Prop :=
  ∀ s : State,
    decode 0x00000031 = .ok .st32
      ∧ (s.latch.fault = true → exec .st32 s = .next s)
      ∧ (s.latch.fault = false → s.plat.bufBytes < dst s + 4 →
          exec .st32 s = .next (faultedWith 3 0x00000031 s))
      ∧ (s.latch.fault = false → dst s + 4 ≤ s.plat.bufBytes →
          ∃ t, exec .st32 s = .next t ∧ t = { s with buf := t.buf }
            ∧ (∀ i < 4, (readByte t (dst s + i)).toNat = s.regs.dlo.toNat / 2 ^ (8 * (3 - i)) % 256)
            ∧ ∀ a, (a < dst s ∨ dst s + 4 ≤ a) → readByte t a = readByte s a)

/-- R184: ST64, the bytes of DHI || DLO from DST on; nothing else changes. -/
def Obligations.St64WritesABigEndianBlock : Prop :=
  ∀ s : State,
    decode 0x00000033 = .ok .st64
      ∧ (s.latch.fault = true → exec .st64 s = .next s)
      ∧ (s.latch.fault = false → s.plat.bufBytes < dst s + 8 →
          exec .st64 s = .next (faultedWith 3 0x00000033 s))
      ∧ (s.latch.fault = false → dst s + 8 ≤ s.plat.bufBytes →
          ∃ t, exec .st64 s = .next t ∧ t = { s with buf := t.buf }
            ∧ (∀ i < 8, (readByte t (dst s + i)).toNat
                = (s.regs.dhi.toNat * 2 ^ 32 + s.regs.dlo.toNat) / 2 ^ (8 * (7 - i)) % 256)
            ∧ ∀ a, (a < dst s ∨ dst s + 8 ≤ a) → readByte t a = readByte s a)

/-- The spec's own inferences (20_memory.md R54, 44_codec.md R180, marked derived): "If MemWrite(a, 8, Hi || Lo)
is followed by MemRead(a, 4), the read gives Hi, and MemRead(a+4, 4)
gives Lo", and the eight bytes read back whole; with R180, each conversion inverts the other of its pair. -/
def Obligations.MixedWidthReadsSeeTheHalves : Prop :=
  ∀ (s : State) (a : Nat) (hi lo : Word) (b0 b1 b2 b3 : Byte),
    read32 (write64 a (join hi lo) s) a = hi ∧ read32 (write64 a (join hi lo) s) (a + 4) = lo
      ∧ read64 (write64 a (join hi lo) s) a = join hi lo
      ∧ be32 (byte0 hi) (byte1 hi) (byte2 hi) (byte3 hi) = hi
      ∧ byte0 (be32 b0 b1 b2 b3) = b0 ∧ byte1 (be32 b0 b1 b2 b3) = b1
      ∧ byte2 (be32 b0 b1 b2 b3) = b2 ∧ byte3 (be32 b0 b1 b2 b3) = b3
      ∧ hiHalf (join hi lo) = hi ∧ loHalf (join hi lo) = lo

/-- R185, R187: HexChar and HexVal, digit by digit: lowercase out, lowercase and digits in. -/
def Obligations.HexDigitsAreAsGiven : Prop :=
  (∀ v : BitVec 4, (hexChar v).toNat = if v.toNat ≤ 9 then 0x30 + v.toNat else 0x61 + (v.toNat - 10))
    ∧ (∀ c : Byte, (hexVal c).map BitVec.toNat =
        if 0x30 ≤ c.toNat ∧ c.toNat ≤ 0x39 then some (c.toNat - 0x30)
        else if 0x61 ≤ c.toNat ∧ c.toNat ≤ 0x66 then some (c.toNat - 0x61 + 10) else none)

/-- R186: HEXENC, its loop as the rule writes it, for every overlap; the count does not wrap (90_conflicts.md
C7). -/
def Obligations.HexencWritesTheCharacters : Prop :=
  ∀ s : State,
    decode 0x00000034 = .ok .hexenc
      ∧ (s.latch.fault = true → exec .hexenc s = .next s)
      ∧ (s.latch.fault = false →
          (s.plat.bufBytes < src s + len s ∨ s.plat.bufBytes < dst s + 2 * len s) →
          exec .hexenc s = .next (faultedWith 3 0x00000034 s))
      ∧ (s.latch.fault = false → src s + len s ≤ s.plat.bufBytes →
          dst s + 2 * len s ≤ s.plat.bufBytes →
          ∃ u t, u = (List.range (len s)).foldl
              (fun u i => writeByte (dst s + 2 * i + 1) (hexChar (lowNibble (readByte u (src s + i))))
                (writeByte (dst s + 2 * i) (hexChar (highNibble (readByte u (src s + i)))) u)) s
            ∧ exec .hexenc s = .next t ∧ t = { u with regs := { u.regs with count := t.regs.count } }
            ∧ (s.plat.wellFormed = true → t.regs.count.toNat = 2 * len s))

/-- R188: HEXDEC, its loop as the rule writes it, for every overlap: valid pairs are packed at DST, malformed
pairs are skipped, COUNT is the number of valid pairs. -/
def Obligations.HexdecSkipsMalformedPairs : Prop :=
  ∀ s : State,
    decode 0x00000035 = .ok .hexdec
      ∧ (s.latch.fault = true → exec .hexdec s = .next s)
      ∧ (s.latch.fault = false →
          (s.plat.bufBytes < src s + 2 * (len s / 2) ∨ s.plat.bufBytes < dst s + len s / 2) →
          exec .hexdec s = .next (faultedWith 3 0x00000035 s))
      ∧ (s.latch.fault = false → src s + 2 * (len s / 2) ≤ s.plat.bufBytes →
          dst s + len s / 2 ≤ s.plat.bufBytes →
          ∃ u : Nat × State, ∃ t, u = (List.range (len s / 2)).foldl
              (fun u i =>
                match hexVal (readByte u.2 (src s + 2 * i)), hexVal (readByte u.2 (src s + 2 * i + 1)) with
                | some h, some l => (u.1 + 1, writeByte (dst s + u.1) (BitVec.ofNat 8 (16 * h.toNat + l.toNat)) u.2)
                | _, _ => u) (0, s)
            ∧ exec .hexdec s = .next t ∧ t = { u.2 with regs := { u.2.regs with count := t.regs.count } }
            ∧ t.regs.count.toNat = u.1)

/-- The spec's own inference (44_codec.md R190, marked derived): "HEXENC into disjoint ranges followed by HEXDEC
of the 2m characters returns the m original bytes
with COUNT = m." The second command writes to `out`, apart from the characters or in place. -/
def Obligations.HexRoundTripRestoresTheBytes : Prop :=
  ∀ (s : State) (l2 out : Word), s.latch.fault = false → src s + len s ≤ s.plat.bufBytes →
    dst s + 2 * len s ≤ s.plat.bufBytes → apart (src s) (len s) (dst s) (2 * len s) →
    l2.toNat = 2 * len s → out.toNat + len s ≤ s.plat.bufBytes →
    (out = s.regs.dst ∨ apart out.toNat (len s) (dst s) (2 * len s)) →
    ∃ t u, exec .hexenc s = .next t
      ∧ exec .hexdec { t with regs := { t.regs with src := s.regs.dst, dst := out, len := l2 } } = .next u
      ∧ (∀ j < len s, readByte u (out.toNat + j) = readByte s (src s + j)) ∧ u.regs.count.toNat = len s

/-! ## Frames -/

/-- What the commands that store nothing leave unchanged: every byte of BUF, and all but the registers their
rules name (R71): KEYINIT and CLEANUP write P, S, IV and KEYV, SETIV writes IV, the others RHI and RLO. A
command that faults changes the latch alone. -/
def Obligations.FrameOfCommandsThatStoreNothing : Prop :=
  ∀ (i : Instr) (s t : State), i ∈ [Instr.keyinit, .cleanup, .encb, .decb, .setiv, .getiv, .ld32, .ld64] →
    exec i s = .next t →
    (∀ a, readByte t a = readByte s a)
      ∧ (i ∉ [Instr.keyinit, .cleanup] → t.cipher = s.cipher ∧ t.keyv = s.keyv)
      ∧ (i ∉ [Instr.keyinit, .cleanup, .setiv] → t.iv = s.iv)
      ∧ (i ∈ [Instr.keyinit, .setiv] → t.regs = s.regs)
      ∧ (i ∈ [Instr.encb, .decb, .getiv, .ld32, .ld64] →
          t.regs = { s.regs with rhi := t.regs.rhi, rlo := t.regs.rlo })
      ∧ (i = .cleanup → t.latch = s.latch)
      ∧ (t.latch = s.latch ∨ t = { s with latch := t.latch })
      ∧ t = { s with cipher := t.cipher, iv := t.iv, keyv := t.keyv, latch := t.latch, regs := t.regs }

/-- What the storing commands leave unchanged: every byte of BUF outside the bytes they store to, from DST on,
and everything else but COUNT (the bulk and hex commands), IV (the CBC commands) and, when the command faults,
the latch, which then is all that changes. -/
def Obligations.FrameOfStoringCommands : Prop :=
  ∀ (i : Instr) (s t : State),
    i ∈ [Instr.st32, .st64, .ecbenc, .ecbdec, .cbcenc, .cbcdec, .hexenc, .hexdec] →
    exec i s = .next t →
    (∀ a, (a < dst s ∨ dst s + storedBytes i s t ≤ a) → readByte t a = readByte s a)
      ∧ (i ∉ [Instr.cbcenc, .cbcdec] → t.iv = s.iv)
      ∧ (i ∈ [Instr.st32, .st64] → t.regs = s.regs)
      ∧ (t.latch = s.latch ∨ t = { s with latch := t.latch })
      ∧ t = { s with
          iv := t.iv, latch := t.latch, regs := { s.regs with count := t.regs.count }, buf := t.buf }
end

