-- ==== Sys2Proof/Laws/State.lean ====
section
/-! SUPPORT. What each named update of State leaves in each field, one lemma per field per update, so that no
proof unfolds a record update. -/

namespace Sys2Proof.Machine

variable (s : State)

@[simp] theorem writeByte_plat (a : Nat) (b : Byte) : (writeByte a b s).plat = s.plat := rfl
@[simp] theorem writeByte_cipher (a : Nat) (b : Byte) : (writeByte a b s).cipher = s.cipher := rfl
@[simp] theorem writeByte_iv (a : Nat) (b : Byte) : (writeByte a b s).iv = s.iv := rfl
@[simp] theorem writeByte_keyv (a : Nat) (b : Byte) : (writeByte a b s).keyv = s.keyv := rfl
@[simp] theorem writeByte_latch (a : Nat) (b : Byte) : (writeByte a b s).latch = s.latch := rfl
@[simp] theorem writeByte_busy (a : Nat) (b : Byte) : (writeByte a b s).busy = s.busy := rfl
@[simp] theorem writeByte_cmd (a : Nat) (b : Byte) : (writeByte a b s).cmd = s.cmd := rfl
@[simp] theorem writeByte_regs (a : Nat) (b : Byte) : (writeByte a b s).regs = s.regs := rfl
@[simp] theorem writeByte_buf (a : Nat) (b : Byte) : (writeByte a b s).buf = s.buf.write a b := rfl
@[simp] theorem writeByte_epoch (a : Nat) (b : Byte) : (writeByte a b s).epoch = s.epoch := rfl
@[simp] theorem writeByte_latency (a : Nat) (b : Byte) : (writeByte a b s).latency = s.latency := rfl
@[simp] theorem writeByte_schedule (a : Nat) (b : Byte) : (writeByte a b s).schedule = s.schedule := rfl
@[simp] theorem writeByte_host (a : Nat) (b : Byte) : (writeByte a b s).host = s.host := rfl

@[simp] theorem write32_plat (a : Nat) (v : Word) : (write32 a v s).plat = s.plat := rfl
@[simp] theorem write32_cipher (a : Nat) (v : Word) : (write32 a v s).cipher = s.cipher := rfl
@[simp] theorem write32_iv (a : Nat) (v : Word) : (write32 a v s).iv = s.iv := rfl
@[simp] theorem write32_keyv (a : Nat) (v : Word) : (write32 a v s).keyv = s.keyv := rfl
@[simp] theorem write32_latch (a : Nat) (v : Word) : (write32 a v s).latch = s.latch := rfl
@[simp] theorem write32_busy (a : Nat) (v : Word) : (write32 a v s).busy = s.busy := rfl
@[simp] theorem write32_cmd (a : Nat) (v : Word) : (write32 a v s).cmd = s.cmd := rfl
@[simp] theorem write32_regs (a : Nat) (v : Word) : (write32 a v s).regs = s.regs := rfl
@[simp] theorem write32_buf (a : Nat) (v : Word) : (write32 a v s).buf = s.buf.write32 a v := rfl
@[simp] theorem write32_epoch (a : Nat) (v : Word) : (write32 a v s).epoch = s.epoch := rfl
@[simp] theorem write32_latency (a : Nat) (v : Word) : (write32 a v s).latency = s.latency := rfl
@[simp] theorem write32_schedule (a : Nat) (v : Word) : (write32 a v s).schedule = s.schedule := rfl
@[simp] theorem write32_host (a : Nat) (v : Word) : (write32 a v s).host = s.host := rfl

@[simp] theorem write64_plat (a : Nat) (v : DWord) : (write64 a v s).plat = s.plat := rfl
@[simp] theorem write64_cipher (a : Nat) (v : DWord) : (write64 a v s).cipher = s.cipher := rfl
@[simp] theorem write64_iv (a : Nat) (v : DWord) : (write64 a v s).iv = s.iv := rfl
@[simp] theorem write64_keyv (a : Nat) (v : DWord) : (write64 a v s).keyv = s.keyv := rfl
@[simp] theorem write64_latch (a : Nat) (v : DWord) : (write64 a v s).latch = s.latch := rfl
@[simp] theorem write64_busy (a : Nat) (v : DWord) : (write64 a v s).busy = s.busy := rfl
@[simp] theorem write64_cmd (a : Nat) (v : DWord) : (write64 a v s).cmd = s.cmd := rfl
@[simp] theorem write64_regs (a : Nat) (v : DWord) : (write64 a v s).regs = s.regs := rfl
@[simp] theorem write64_buf (a : Nat) (v : DWord) : (write64 a v s).buf = s.buf.write64 a v := rfl
@[simp] theorem write64_epoch (a : Nat) (v : DWord) : (write64 a v s).epoch = s.epoch := rfl
@[simp] theorem write64_latency (a : Nat) (v : DWord) : (write64 a v s).latency = s.latency := rfl
@[simp] theorem write64_schedule (a : Nat) (v : DWord) : (write64 a v s).schedule = s.schedule := rfl
@[simp] theorem write64_host (a : Nat) (v : DWord) : (write64 a v s).host = s.host := rfl

@[simp] theorem setResult_plat (h l : Word) : (setResult h l s).plat = s.plat := rfl
@[simp] theorem setResult_cipher (h l : Word) : (setResult h l s).cipher = s.cipher := rfl
@[simp] theorem setResult_iv (h l : Word) : (setResult h l s).iv = s.iv := rfl
@[simp] theorem setResult_keyv (h l : Word) : (setResult h l s).keyv = s.keyv := rfl
@[simp] theorem setResult_latch (h l : Word) : (setResult h l s).latch = s.latch := rfl
@[simp] theorem setResult_busy (h l : Word) : (setResult h l s).busy = s.busy := rfl
@[simp] theorem setResult_cmd (h l : Word) : (setResult h l s).cmd = s.cmd := rfl
@[simp] theorem setResult_regs (h l : Word) : (setResult h l s).regs = { s.regs with rhi := h, rlo := l } := rfl
@[simp] theorem setResult_buf (h l : Word) : (setResult h l s).buf = s.buf := rfl
@[simp] theorem setResult_epoch (h l : Word) : (setResult h l s).epoch = s.epoch := rfl
@[simp] theorem setResult_latency (h l : Word) : (setResult h l s).latency = s.latency := rfl
@[simp] theorem setResult_schedule (h l : Word) : (setResult h l s).schedule = s.schedule := rfl
@[simp] theorem setResult_host (h l : Word) : (setResult h l s).host = s.host := rfl

@[simp] theorem setCount_plat (n : Nat) : (setCount n s).plat = s.plat := rfl
@[simp] theorem setCount_cipher (n : Nat) : (setCount n s).cipher = s.cipher := rfl
@[simp] theorem setCount_iv (n : Nat) : (setCount n s).iv = s.iv := rfl
@[simp] theorem setCount_keyv (n : Nat) : (setCount n s).keyv = s.keyv := rfl
@[simp] theorem setCount_latch (n : Nat) : (setCount n s).latch = s.latch := rfl
@[simp] theorem setCount_busy (n : Nat) : (setCount n s).busy = s.busy := rfl
@[simp] theorem setCount_cmd (n : Nat) : (setCount n s).cmd = s.cmd := rfl
@[simp] theorem setCount_regs (n : Nat) : (setCount n s).regs = { s.regs with count := BitVec.ofNat 32 n } := rfl
@[simp] theorem setCount_buf (n : Nat) : (setCount n s).buf = s.buf := rfl
@[simp] theorem setCount_epoch (n : Nat) : (setCount n s).epoch = s.epoch := rfl
@[simp] theorem setCount_latency (n : Nat) : (setCount n s).latency = s.latency := rfl
@[simp] theorem setCount_schedule (n : Nat) : (setCount n s).schedule = s.schedule := rfl
@[simp] theorem setCount_host (n : Nat) : (setCount n s).host = s.host := rfl

@[simp] theorem setIv_plat (v : DWord) : (setIv v s).plat = s.plat := rfl
@[simp] theorem setIv_cipher (v : DWord) : (setIv v s).cipher = s.cipher := rfl
@[simp] theorem setIv_iv (v : DWord) : (setIv v s).iv = v := rfl
@[simp] theorem setIv_keyv (v : DWord) : (setIv v s).keyv = s.keyv := rfl
@[simp] theorem setIv_latch (v : DWord) : (setIv v s).latch = s.latch := rfl
@[simp] theorem setIv_busy (v : DWord) : (setIv v s).busy = s.busy := rfl
@[simp] theorem setIv_cmd (v : DWord) : (setIv v s).cmd = s.cmd := rfl
@[simp] theorem setIv_regs (v : DWord) : (setIv v s).regs = s.regs := rfl
@[simp] theorem setIv_buf (v : DWord) : (setIv v s).buf = s.buf := rfl
@[simp] theorem setIv_epoch (v : DWord) : (setIv v s).epoch = s.epoch := rfl
@[simp] theorem setIv_latency (v : DWord) : (setIv v s).latency = s.latency := rfl
@[simp] theorem setIv_schedule (v : DWord) : (setIv v s).schedule = s.schedule := rfl
@[simp] theorem setIv_host (v : DWord) : (setIv v s).host = s.host := rfl

@[simp] theorem loadSchedule_plat (c : Cipher) : (loadSchedule c s).plat = s.plat := rfl
@[simp] theorem loadSchedule_cipher (c : Cipher) : (loadSchedule c s).cipher = c := rfl
@[simp] theorem loadSchedule_iv (c : Cipher) : (loadSchedule c s).iv = 0 := rfl
@[simp] theorem loadSchedule_keyv (c : Cipher) : (loadSchedule c s).keyv = true := rfl
@[simp] theorem loadSchedule_latch (c : Cipher) : (loadSchedule c s).latch = s.latch := rfl
@[simp] theorem loadSchedule_busy (c : Cipher) : (loadSchedule c s).busy = s.busy := rfl
@[simp] theorem loadSchedule_cmd (c : Cipher) : (loadSchedule c s).cmd = s.cmd := rfl
@[simp] theorem loadSchedule_regs (c : Cipher) : (loadSchedule c s).regs = s.regs := rfl
@[simp] theorem loadSchedule_buf (c : Cipher) : (loadSchedule c s).buf = s.buf := rfl
@[simp] theorem loadSchedule_epoch (c : Cipher) : (loadSchedule c s).epoch = s.epoch := rfl
@[simp] theorem loadSchedule_latency (c : Cipher) : (loadSchedule c s).latency = s.latency := rfl
@[simp] theorem loadSchedule_schedule (c : Cipher) : (loadSchedule c s).schedule = s.schedule := rfl
@[simp] theorem loadSchedule_host (c : Cipher) : (loadSchedule c s).host = s.host := rfl

@[simp] theorem zeroSecrets_plat : (zeroSecrets s).plat = s.plat := rfl
@[simp] theorem zeroSecrets_cipher : (zeroSecrets s).cipher = Cipher.zero := rfl
@[simp] theorem zeroSecrets_iv : (zeroSecrets s).iv = 0 := rfl
@[simp] theorem zeroSecrets_keyv : (zeroSecrets s).keyv = false := rfl
@[simp] theorem zeroSecrets_latch : (zeroSecrets s).latch = s.latch := rfl
@[simp] theorem zeroSecrets_busy : (zeroSecrets s).busy = s.busy := rfl
@[simp] theorem zeroSecrets_cmd : (zeroSecrets s).cmd = s.cmd := rfl
@[simp] theorem zeroSecrets_regs : (zeroSecrets s).regs = { s.regs with dhi := 0, dlo := 0, rhi := 0, rlo := 0 } := rfl
@[simp] theorem zeroSecrets_buf : (zeroSecrets s).buf = s.buf := rfl
@[simp] theorem zeroSecrets_epoch : (zeroSecrets s).epoch = s.epoch := rfl
@[simp] theorem zeroSecrets_latency : (zeroSecrets s).latency = s.latency := rfl
@[simp] theorem zeroSecrets_schedule : (zeroSecrets s).schedule = s.schedule := rfl
@[simp] theorem zeroSecrets_host : (zeroSecrets s).host = s.host := rfl

@[simp] theorem raiseFault_plat (e : FaultCode) (w : Word) : (raiseFault e w s).plat = s.plat := rfl
@[simp] theorem raiseFault_cipher (e : FaultCode) (w : Word) : (raiseFault e w s).cipher = s.cipher := rfl
@[simp] theorem raiseFault_iv (e : FaultCode) (w : Word) : (raiseFault e w s).iv = s.iv := rfl
@[simp] theorem raiseFault_keyv (e : FaultCode) (w : Word) : (raiseFault e w s).keyv = s.keyv := rfl
@[simp] theorem raiseFault_latch (e : FaultCode) (w : Word) : (raiseFault e w s).latch = { fault := true, ecode := ecodeOf e, fcmd := w } := rfl
@[simp] theorem raiseFault_busy (e : FaultCode) (w : Word) : (raiseFault e w s).busy = s.busy := rfl
@[simp] theorem raiseFault_cmd (e : FaultCode) (w : Word) : (raiseFault e w s).cmd = s.cmd := rfl
@[simp] theorem raiseFault_regs (e : FaultCode) (w : Word) : (raiseFault e w s).regs = s.regs := rfl
@[simp] theorem raiseFault_buf (e : FaultCode) (w : Word) : (raiseFault e w s).buf = s.buf := rfl
@[simp] theorem raiseFault_epoch (e : FaultCode) (w : Word) : (raiseFault e w s).epoch = s.epoch := rfl
@[simp] theorem raiseFault_latency (e : FaultCode) (w : Word) : (raiseFault e w s).latency = s.latency := rfl
@[simp] theorem raiseFault_schedule (e : FaultCode) (w : Word) : (raiseFault e w s).schedule = s.schedule := rfl
@[simp] theorem raiseFault_host (e : FaultCode) (w : Word) : (raiseFault e w s).host = s.host := rfl

@[simp] theorem takeReset_plat : (takeReset s).plat = s.plat := rfl
@[simp] theorem takeReset_cipher : (takeReset s).cipher = Cipher.zero := rfl
@[simp] theorem takeReset_iv : (takeReset s).iv = 0 := rfl
@[simp] theorem takeReset_keyv : (takeReset s).keyv = false := rfl
@[simp] theorem takeReset_latch : (takeReset s).latch = Latch.clear := rfl
@[simp] theorem takeReset_busy : (takeReset s).busy = false := rfl
@[simp] theorem takeReset_cmd : (takeReset s).cmd = 0 := rfl
@[simp] theorem takeReset_regs : (takeReset s).regs = Regs.zero := rfl
@[simp] theorem takeReset_buf : (takeReset s).buf = [] := rfl
@[simp] theorem takeReset_epoch : (takeReset s).epoch = s.epoch + 1 := rfl
@[simp] theorem takeReset_latency : (takeReset s).latency = 0 := rfl
@[simp] theorem takeReset_schedule : (takeReset s).schedule = s.schedule := rfl
@[simp] theorem takeReset_host : (takeReset s).host = { s.host with mustPoll := false } := rfl

@[simp] theorem postCommand_plat (w : Word) (n : Nat) : (postCommand w n s).plat = s.plat := rfl
@[simp] theorem postCommand_cipher (w : Word) (n : Nat) : (postCommand w n s).cipher = s.cipher := rfl
@[simp] theorem postCommand_iv (w : Word) (n : Nat) : (postCommand w n s).iv = s.iv := rfl
@[simp] theorem postCommand_keyv (w : Word) (n : Nat) : (postCommand w n s).keyv = s.keyv := rfl
@[simp] theorem postCommand_latch (w : Word) (n : Nat) : (postCommand w n s).latch = s.latch := rfl
@[simp] theorem postCommand_busy (w : Word) (n : Nat) : (postCommand w n s).busy = true := rfl
@[simp] theorem postCommand_cmd (w : Word) (n : Nat) : (postCommand w n s).cmd = w := rfl
@[simp] theorem postCommand_regs (w : Word) (n : Nat) : (postCommand w n s).regs = s.regs := rfl
@[simp] theorem postCommand_buf (w : Word) (n : Nat) : (postCommand w n s).buf = s.buf := rfl
@[simp] theorem postCommand_epoch (w : Word) (n : Nat) : (postCommand w n s).epoch = s.epoch := rfl
@[simp] theorem postCommand_latency (w : Word) (n : Nat) : (postCommand w n s).latency = n := rfl
@[simp] theorem postCommand_schedule (w : Word) (n : Nat) : (postCommand w n s).schedule = s.schedule := rfl
@[simp] theorem postCommand_host (w : Word) (n : Nat) : (postCommand w n s).host = { s.host with mustPoll := true } := rfl

@[simp] theorem writeCmd_plat (w : Word) : (writeCmd w s).plat = s.plat := rfl
@[simp] theorem writeCmd_cipher (w : Word) : (writeCmd w s).cipher = s.cipher := rfl
@[simp] theorem writeCmd_iv (w : Word) : (writeCmd w s).iv = s.iv := rfl
@[simp] theorem writeCmd_keyv (w : Word) : (writeCmd w s).keyv = s.keyv := rfl
@[simp] theorem writeCmd_latch (w : Word) : (writeCmd w s).latch = s.latch := rfl
@[simp] theorem writeCmd_busy (w : Word) : (writeCmd w s).busy = true := rfl
@[simp] theorem writeCmd_cmd (w : Word) : (writeCmd w s).cmd = w := rfl
@[simp] theorem writeCmd_regs (w : Word) : (writeCmd w s).regs = s.regs := rfl
@[simp] theorem writeCmd_buf (w : Word) : (writeCmd w s).buf = s.buf := rfl
@[simp] theorem writeCmd_epoch (w : Word) : (writeCmd w s).epoch = s.epoch := rfl
@[simp] theorem writeCmd_latency (w : Word) : (writeCmd w s).latency = s.schedule.headD 0 := rfl
@[simp] theorem writeCmd_schedule (w : Word) : (writeCmd w s).schedule = s.schedule.tail := rfl
@[simp] theorem writeCmd_host (w : Word) : (writeCmd w s).host = { s.host with mustPoll := true } := rfl

@[simp] theorem advance_plat : (advance s).plat = s.plat := rfl
@[simp] theorem advance_cipher : (advance s).cipher = s.cipher := rfl
@[simp] theorem advance_iv : (advance s).iv = s.iv := rfl
@[simp] theorem advance_keyv : (advance s).keyv = s.keyv := rfl
@[simp] theorem advance_latch : (advance s).latch = s.latch := rfl
@[simp] theorem advance_busy : (advance s).busy = s.busy := rfl
@[simp] theorem advance_cmd : (advance s).cmd = s.cmd := rfl
@[simp] theorem advance_regs : (advance s).regs = s.regs := rfl
@[simp] theorem advance_buf : (advance s).buf = s.buf := rfl
@[simp] theorem advance_epoch : (advance s).epoch = s.epoch := rfl
@[simp] theorem advance_latency : (advance s).latency = s.latency := rfl
@[simp] theorem advance_schedule : (advance s).schedule = s.schedule := rfl
@[simp] theorem advance_host : (advance s).host = { s.host with pc := s.host.pc + 1 } := rfl

@[simp] theorem record_plat (v : Word) : (record v s).plat = s.plat := rfl
@[simp] theorem record_cipher (v : Word) : (record v s).cipher = s.cipher := rfl
@[simp] theorem record_iv (v : Word) : (record v s).iv = s.iv := rfl
@[simp] theorem record_keyv (v : Word) : (record v s).keyv = s.keyv := rfl
@[simp] theorem record_latch (v : Word) : (record v s).latch = s.latch := rfl
@[simp] theorem record_busy (v : Word) : (record v s).busy = s.busy := rfl
@[simp] theorem record_cmd (v : Word) : (record v s).cmd = s.cmd := rfl
@[simp] theorem record_regs (v : Word) : (record v s).regs = s.regs := rfl
@[simp] theorem record_buf (v : Word) : (record v s).buf = s.buf := rfl
@[simp] theorem record_epoch (v : Word) : (record v s).epoch = s.epoch := rfl
@[simp] theorem record_latency (v : Word) : (record v s).latency = s.latency := rfl
@[simp] theorem record_schedule (v : Word) : (record v s).schedule = s.schedule := rfl
@[simp] theorem record_host (v : Word) : (record v s).host = { s.host with seen := v :: s.host.seen } := rfl

@[simp] theorem noteStatus_plat (v : Word) : (noteStatus v s).plat = s.plat := rfl
@[simp] theorem noteStatus_cipher (v : Word) : (noteStatus v s).cipher = s.cipher := rfl
@[simp] theorem noteStatus_iv (v : Word) : (noteStatus v s).iv = s.iv := rfl
@[simp] theorem noteStatus_keyv (v : Word) : (noteStatus v s).keyv = s.keyv := rfl
@[simp] theorem noteStatus_latch (v : Word) : (noteStatus v s).latch = s.latch := rfl
@[simp] theorem noteStatus_busy (v : Word) : (noteStatus v s).busy = s.busy := rfl
@[simp] theorem noteStatus_cmd (v : Word) : (noteStatus v s).cmd = s.cmd := rfl
@[simp] theorem noteStatus_regs (v : Word) : (noteStatus v s).regs = s.regs := rfl
@[simp] theorem noteStatus_buf (v : Word) : (noteStatus v s).buf = s.buf := rfl
@[simp] theorem noteStatus_epoch (v : Word) : (noteStatus v s).epoch = s.epoch := rfl
@[simp] theorem noteStatus_latency (v : Word) : (noteStatus v s).latency = s.latency := rfl
@[simp] theorem noteStatus_schedule (v : Word) : (noteStatus v s).schedule = s.schedule := rfl
@[simp] theorem noteStatus_host (v : Word) : (noteStatus v s).host = { s.host with mustPoll := s.host.mustPoll && showsBusy v } := rfl

@[simp] theorem clearBusy_plat : (clearBusy s).plat = s.plat := rfl
@[simp] theorem clearBusy_cipher : (clearBusy s).cipher = s.cipher := rfl
@[simp] theorem clearBusy_iv : (clearBusy s).iv = s.iv := rfl
@[simp] theorem clearBusy_keyv : (clearBusy s).keyv = s.keyv := rfl
@[simp] theorem clearBusy_latch : (clearBusy s).latch = s.latch := rfl
@[simp] theorem clearBusy_busy : (clearBusy s).busy = false := rfl
@[simp] theorem clearBusy_cmd : (clearBusy s).cmd = s.cmd := rfl
@[simp] theorem clearBusy_regs : (clearBusy s).regs = s.regs := rfl
@[simp] theorem clearBusy_buf : (clearBusy s).buf = s.buf := rfl
@[simp] theorem clearBusy_epoch : (clearBusy s).epoch = s.epoch := rfl
@[simp] theorem clearBusy_latency : (clearBusy s).latency = s.latency := rfl
@[simp] theorem clearBusy_schedule : (clearBusy s).schedule = s.schedule := rfl
@[simp] theorem clearBusy_host : (clearBusy s).host = s.host := rfl

@[simp] theorem passTime_plat (n : Nat) : (passTime n s).plat = s.plat := rfl
@[simp] theorem passTime_cipher (n : Nat) : (passTime n s).cipher = s.cipher := rfl
@[simp] theorem passTime_iv (n : Nat) : (passTime n s).iv = s.iv := rfl
@[simp] theorem passTime_keyv (n : Nat) : (passTime n s).keyv = s.keyv := rfl
@[simp] theorem passTime_latch (n : Nat) : (passTime n s).latch = s.latch := rfl
@[simp] theorem passTime_busy (n : Nat) : (passTime n s).busy = s.busy := rfl
@[simp] theorem passTime_cmd (n : Nat) : (passTime n s).cmd = s.cmd := rfl
@[simp] theorem passTime_regs (n : Nat) : (passTime n s).regs = s.regs := rfl
@[simp] theorem passTime_buf (n : Nat) : (passTime n s).buf = s.buf := rfl
@[simp] theorem passTime_epoch (n : Nat) : (passTime n s).epoch = s.epoch := rfl
@[simp] theorem passTime_latency (n : Nat) : (passTime n s).latency = n := rfl
@[simp] theorem passTime_schedule (n : Nat) : (passTime n s).schedule = s.schedule := rfl
@[simp] theorem passTime_host (n : Nat) : (passTime n s).host = s.host := rfl

end Sys2Proof.Machine
end

