-- ==== Sys2Proof/Laws/Memory.lean ====
section
/-! SUPPORT. The laws of BUF: read after write, the canonical form and the bound that every write keeps, and
the reads and writes of 4 and 8 bytes (20_memory.md R52, R54). -/

namespace Sys2Proof.Machine

/-! ## The list -/

theorem Memory.read_write (m : Memory) (a a' : Nat) (v : Byte) :
    (m.write a v).read a' = if a' = a then some v else m.read a' := by
  induction m with
  | nil => simp only [Memory.write, Memory.read, eq_comm]
  | cons cell rest ih =>
    obtain ⟨k, b⟩ := cell
    simp only [Memory.write]
    split_ifs <;> simp only [Memory.read, ih] <;> split_ifs <;> first | rfl | omega

theorem Memory.rising_cons (k : Nat) (b : Byte) (m : Memory) :
    Memory.rising ((k, b) :: m) = true ↔ (∀ cell ∈ m, k < cell.1) ∧ Memory.rising m = true := by
  induction m generalizing k b with
  | nil => simp [Memory.rising]
  | cons cell rest ih =>
    obtain ⟨k', b'⟩ := cell
    simp only [Memory.rising, Bool.and_eq_true, decide_eq_true_eq, ih k' b', List.mem_cons, forall_eq_or_imp]
    constructor
    · rintro ⟨h, h', r⟩
      exact ⟨⟨h, fun c hc => h.trans (h' c hc)⟩, h', r⟩
    · rintro ⟨⟨h, _⟩, h', r⟩
      exact ⟨h, h', r⟩

theorem Memory.mem_write {m : Memory} {a : Nat} {v : Byte} {cell : Host.Cell}
    (h : cell ∈ m.write a v) : cell = (a, v) ∨ cell ∈ m := by
  induction m with
  | nil => simpa [Memory.write] using h
  | cons c rest ih =>
    obtain ⟨k, b⟩ := c
    simp only [Memory.write] at h
    split_ifs at h with h1 h2
    · simpa using h
    · rcases List.mem_cons.1 h with h | h
      · exact .inl h
      · exact .inr (List.mem_cons_of_mem _ h)
    · rcases List.mem_cons.1 h with h | h
      · exact .inr (h ▸ List.mem_cons_self)
      · exact (ih h).imp_right (List.mem_cons_of_mem _)

theorem Memory.rising_write {m : Memory} (a : Nat) (v : Byte) (h : Memory.rising m = true) :
    Memory.rising (m.write a v) = true := by
  induction m with
  | nil => rfl
  | cons c rest ih =>
    obtain ⟨k, b⟩ := c
    have hc := (Memory.rising_cons k b rest).1 h
    simp only [Memory.write]
    split_ifs with h1 h2
    · refine (Memory.rising_cons _ _ _).2 ⟨?_, h⟩
      intro cell hm
      rcases List.mem_cons.1 hm with rfl | hm
      · exact h1
      · exact h1.trans (hc.1 cell hm)
    · exact (Memory.rising_cons _ _ _).2 ⟨fun cell hm => h2 ▸ hc.1 cell hm, hc.2⟩
    · refine (Memory.rising_cons _ _ _).2 ⟨?_, ih hc.2⟩
      intro cell hm
      rcases Memory.mem_write hm with rfl | hm
      · omega
      · exact hc.1 cell hm

/-- Every write keeps the canonical form. -/
theorem Memory.wf_write {m : Memory} (a : Nat) (v : Byte) (h : Memory.wf m = true) :
    Memory.wf (m.write a v) = true := by
  simp only [Memory.wf, Memory.unlisted, Bool.and_eq_true, List.all_eq_true] at h ⊢
  exact ⟨Memory.rising_write a v h.1, fun cell _ => by simp⟩

theorem Memory.wf_nil : Memory.wf [] = true := rfl

/-- A write below the bound keeps the bound. -/
theorem Memory.below_write {m : Memory} {a bound : Nat} (v : Byte) (ha : a < bound)
    (h : Memory.below m bound = true) : Memory.below (m.write a v) bound = true := by
  simp only [Memory.below, List.all_eq_true, decide_eq_true_eq] at h ⊢
  intro cell hm
  rcases Memory.mem_write hm with rfl | hm
  · exact ha
  · exact h cell hm

/-! ## Bytes -/

@[simp] theorem readByte_writeByte (s : State) (a a' : Nat) (b : Byte) :
    readByte (writeByte a b s) a' = if a' = a then b else readByte s a' := by
  simp only [readByte, writeByte_buf, writeByte_epoch, Memory.read_write]
  split_ifs <;> rfl

/-- What a read depends on. -/
theorem readByte_congr {s t : State} (hb : t.buf = s.buf) (he : t.epoch = s.epoch) (a : Nat) :
    readByte t a = readByte s a := by simp only [readByte, hb, he]

@[simp] theorem readByte_setResult (s : State) (h l : Word) (a : Nat) :
    readByte (setResult h l s) a = readByte s a := rfl
@[simp] theorem readByte_setCount (s : State) (n a : Nat) : readByte (setCount n s) a = readByte s a := rfl
@[simp] theorem readByte_setIv (s : State) (v : DWord) (a : Nat) : readByte (setIv v s) a = readByte s a := rfl
@[simp] theorem readByte_loadSchedule (s : State) (c : Cipher) (a : Nat) :
    readByte (loadSchedule c s) a = readByte s a := rfl
@[simp] theorem readByte_zeroSecrets (s : State) (a : Nat) : readByte (zeroSecrets s) a = readByte s a := rfl
@[simp] theorem readByte_raiseFault (s : State) (e : FaultCode) (w : Word) (a : Nat) :
    readByte (raiseFault e w s) a = readByte s a := rfl
@[simp] theorem readByte_clearBusy (s : State) (a : Nat) : readByte (clearBusy s) a = readByte s a := rfl
@[simp] theorem readByte_advance (s : State) (a : Nat) : readByte (advance s) a = readByte s a := rfl
@[simp] theorem readByte_record (s : State) (v : Word) (a : Nat) : readByte (record v s) a = readByte s a := rfl

theorem read32_congr {s t : State} {a a' : Nat} (h : ∀ i < 4, readByte t (a + i) = readByte s (a' + i)) :
    read32 t a = read32 s a' := by
  have h0 := h 0 (by omega); have h1 := h 1 (by omega); have h2 := h 2 (by omega); have h3 := h 3 (by omega)
  simp only [Nat.add_zero] at h0
  simp only [read32, h0, h1, h2, h3]

theorem read64_congr {s t : State} {a a' : Nat} (h : ∀ i < 8, readByte t (a + i) = readByte s (a' + i)) :
    read64 t a = read64 s a' := by
  have hi : read32 t a = read32 s a' := read32_congr fun i hi => h i (by omega)
  have lo : read32 t (a + 4) = read32 s (a' + 4) :=
    read32_congr fun i hi => by simpa [Nat.add_assoc] using h (4 + i) (by omega)
  simp only [read64, hi, lo]

@[simp] theorem read64_setIv (s : State) (v : DWord) (a : Nat) : read64 (setIv v s) a = read64 s a := rfl
@[simp] theorem read64_setCount (s : State) (n a : Nat) : read64 (setCount n s) a = read64 s a := rfl

/-! ## Words and their bytes (20_memory.md R52) -/

/-- Byte `i` of a word, the most significant first. -/
def wordByte (w : Word) (i : Nat) : Byte := w.extractLsb' (8 * (3 - i)) 8

/-- Byte `i` of a block, the most significant first. -/
def blockByte (v : DWord) (i : Nat) : Byte := v.extractLsb' (8 * (7 - i)) 8

theorem or_below (k x : Nat) {y : Nat} (h : y < 2 ^ k) : x * 2 ^ k ||| y = x * 2 ^ k + y := by
  rw [← Nat.shiftLeft_eq, Nat.shiftLeft_add_eq_or_of_lt h]

theorem append_toNat {n k : Nat} (x : BitVec n) (y : BitVec k) :
    (x ++ y).toNat = x.toNat * 2 ^ k + y.toNat := by
  rw [BitVec.toNat_append, Nat.shiftLeft_eq, or_below k _ y.isLt]

theorem be32_toNat (b0 b1 b2 b3 : Byte) :
    (be32 b0 b1 b2 b3).toNat = b0.toNat * 2 ^ 24 + b1.toNat * 2 ^ 16 + b2.toNat * 2 ^ 8 + b3.toNat := by
  simp only [be32, append_toNat]
  omega

theorem be32_bytes (w : Word) : be32 (byte0 w) (byte1 w) (byte2 w) (byte3 w) = w := by
  apply BitVec.eq_of_toNat_eq
  simp only [be32_toNat, byte0, byte1, byte2, byte3, BitVec.extractLsb'_toNat, Nat.shiftRight_eq_div_pow]
  have := w.isLt
  omega

theorem byteN_be32 (b0 b1 b2 b3 : Byte) :
    byte0 (be32 b0 b1 b2 b3) = b0 ∧ byte1 (be32 b0 b1 b2 b3) = b1
      ∧ byte2 (be32 b0 b1 b2 b3) = b2 ∧ byte3 (be32 b0 b1 b2 b3) = b3 := by
  refine ⟨?_, ?_, ?_, ?_⟩ <;> apply BitVec.eq_of_toNat_eq <;>
    simp only [byte0, byte1, byte2, byte3, BitVec.extractLsb'_toNat, be32_toNat, Nat.shiftRight_eq_div_pow] <;>
    have h0 := b0.isLt <;> have h1 := b1.isLt <;> have h2 := b2.isLt <;> have h3 := b3.isLt <;> omega

theorem join_toNat (h l : Word) : (join h l).toNat = h.toNat * 2 ^ 32 + l.toNat := by
  simp only [join, append_toNat]

@[simp] theorem hiHalf_join (h l : Word) : hiHalf (join h l) = h := by
  apply BitVec.eq_of_toNat_eq
  simp only [hiHalf, BitVec.extractLsb'_toNat, join_toNat, Nat.shiftRight_eq_div_pow]
  have := h.isLt; have := l.isLt; omega

@[simp] theorem loHalf_join (h l : Word) : loHalf (join h l) = l := by
  apply BitVec.eq_of_toNat_eq
  simp only [loHalf, BitVec.extractLsb'_toNat, join_toNat, Nat.shiftRight_eq_div_pow]
  have := h.isLt; have := l.isLt; omega

@[simp] theorem join_halves (v : DWord) : join (hiHalf v) (loHalf v) = v := by
  apply BitVec.eq_of_toNat_eq
  simp only [join_toNat, hiHalf, loHalf, BitVec.extractLsb'_toNat, Nat.shiftRight_eq_div_pow]
  have := v.isLt; omega

/-! ## Reads and writes of 4 and 8 bytes (20_memory.md R54) -/

theorem write32_eq (s : State) (a : Nat) (v : Word) :
    write32 a v s = writeByte (a + 3) (byte3 v) (writeByte (a + 2) (byte2 v)
      (writeByte (a + 1) (byte1 v) (writeByte a (byte0 v) s))) := rfl

theorem write64_eq (s : State) (a : Nat) (v : DWord) :
    write64 a v s = write32 (a + 4) (loHalf v) (write32 a (hiHalf v) s) := rfl

/-- A 4-byte write, byte by byte: each of its bytes, and every byte outside it. -/
theorem readByte_write32 (s : State) (a a' : Nat) (v : Word) :
    readByte (write32 a v s) a' =
      if a ≤ a' ∧ a' < a + 4 then wordByte v (a' - a) else readByte s a' := by
  rw [write32_eq]
  simp only [readByte_writeByte]
  by_cases h : a ≤ a' ∧ a' < a + 4
  · obtain ⟨i, rfl⟩ := Nat.exists_eq_add_of_le h.1
    rw [if_pos h, Nat.add_sub_cancel_left]
    have hi : i < 4 := by omega
    interval_cases i
    · rw [if_neg (by omega), if_neg (by omega), if_neg (by omega), if_pos (by omega)]; rfl
    · rw [if_neg (by omega), if_neg (by omega), if_pos (by omega)]; rfl
    · rw [if_neg (by omega), if_pos (by omega)]; rfl
    · rw [if_pos rfl]; rfl
  · rw [if_neg (by omega), if_neg (by omega), if_neg (by omega), if_neg (by omega), if_neg h]

theorem blockByte_hi (v : DWord) (i : Nat) (h : i < 4) : wordByte (hiHalf v) i = blockByte v i := by
  apply BitVec.eq_of_toNat_eq
  simp only [wordByte, blockByte, hiHalf, BitVec.extractLsb'_toNat, Nat.shiftRight_eq_div_pow]
  have := v.isLt
  interval_cases i <;> simp only [Nat.reducePow, Nat.reduceMul, Nat.reduceSub] <;> omega

theorem blockByte_lo (v : DWord) (i : Nat) (h : i < 4) : wordByte (loHalf v) i = blockByte v (4 + i) := by
  apply BitVec.eq_of_toNat_eq
  simp only [wordByte, blockByte, loHalf, BitVec.extractLsb'_toNat, Nat.shiftRight_eq_div_pow]
  have := v.isLt
  interval_cases i <;> simp only [Nat.reducePow, Nat.reduceMul, Nat.reduceSub, Nat.reduceAdd] <;> omega

/-- An 8-byte write, byte by byte. -/
theorem readByte_write64 (s : State) (a a' : Nat) (v : DWord) :
    readByte (write64 a v s) a' =
      if a ≤ a' ∧ a' < a + 8 then blockByte v (a' - a) else readByte s a' := by
  rw [write64_eq, readByte_write32, readByte_write32]
  by_cases h : a ≤ a' ∧ a' < a + 8
  · obtain ⟨i, rfl⟩ := Nat.exists_eq_add_of_le h.1
    rw [if_pos h]
    by_cases h4 : i < 4
    · rw [if_neg (by omega), if_pos (by omega), Nat.add_sub_cancel_left, blockByte_hi v i h4]
    · rw [if_pos (by omega), Nat.add_sub_cancel_left, show a + i - (a + 4) = i - 4 by omega,
        blockByte_lo v (i - 4) (by omega), show 4 + (i - 4) = i by omega]
  · rw [if_neg (by omega), if_neg (by omega), if_neg h]

theorem readByte_write64_outside (s : State) (a a' : Nat) (v : DWord) (h : a' < a ∨ a + 8 ≤ a') :
    readByte (write64 a v s) a' = readByte s a' := by
  rw [readByte_write64, if_neg (by omega)]

theorem read32_write32 (s : State) (a : Nat) (v : Word) : read32 (write32 a v s) a = v := by
  simp only [read32, readByte_write32]
  rw [if_pos (by omega), if_pos (by omega), if_pos (by omega), if_pos (by omega)]
  simp only [Nat.sub_self, Nat.add_sub_cancel_left]
  exact be32_bytes v

theorem read32_write32_outside (s : State) (a a' : Nat) (v : Word) (h : a' + 4 ≤ a ∨ a + 4 ≤ a') :
    read32 (write32 a v s) a' = read32 s a' :=
  read32_congr fun i hi => by rw [readByte_write32, if_neg (by omega)]

@[simp] theorem read64_write64 (s : State) (a : Nat) (v : DWord) : read64 (write64 a v s) a = v := by
  rw [read64, write64_eq]
  rw [read32_write32, read32_write32_outside _ _ _ _ (by omega), read32_write32, join_halves]

theorem read64_write64_outside (s : State) (a a' : Nat) (v : DWord) (h : a' + 8 ≤ a ∨ a + 8 ≤ a') :
    read64 (write64 a v s) a' = read64 s a' :=
  read64_congr fun i hi => readByte_write64_outside _ _ _ _ (by omega)

/-- A byte of the block at an address. -/
theorem blockByte_read64 (s : State) (a i : Nat) (h : i < 8) : blockByte (read64 s a) i = readByte s (a + i) := by
  have e : ∀ k < 4, ∀ c, wordByte (read32 s c) k = readByte s (c + k) := by
    intro k hk c
    have := byteN_be32 (readByte s c) (readByte s (c + 1)) (readByte s (c + 2)) (readByte s (c + 3))
    interval_cases k
    · exact this.1
    · exact this.2.1
    · exact this.2.2.1
    · exact this.2.2.2
  by_cases h4 : i < 4
  · rw [← blockByte_hi _ _ h4, read64, hiHalf_join, e i h4]
  · have := blockByte_lo (read64 s a) (i - 4) (by omega)
    rw [show 4 + (i - 4) = i by omega] at this
    rw [← this, read64, loHalf_join, e _ (by omega), show a + 4 + (i - 4) = a + i by omega]

theorem readBytes_eq_map (s : State) (n a : Nat) :
    readBytes s n a = (List.range n).map (fun i => readByte s (a + i)) := by
  induction n generalizing a with
  | zero => rfl
  | succ n ih =>
    rw [readBytes, ih, List.range_succ_eq_map, List.map_cons, List.map_map]
    congr 1
    apply List.map_congr_left
    intro i _
    simp only [Function.comp, Nat.succ_eq_add_one]
    congr 1
    omega

@[simp] theorem readBytes_length (s : State) (n a : Nat) : (readBytes s n a).length = n := by
  rw [readBytes_eq_map, List.length_map, List.length_range]

/-! ## What BUF's list keeps -/

/-- BUF's list is canonical and stays inside BUF. -/
def bufGood (s : State) : Prop := Memory.wf s.buf = true ∧ Memory.below s.buf s.plat.bufBytes = true

theorem bufGood_congr {s t : State} (hb : t.buf = s.buf) (hp : t.plat = s.plat) (h : bufGood s) : bufGood t := by
  simp only [bufGood, hb, hp]; exact h

theorem bufGood_writeByte {s : State} {a : Nat} (b : Byte) (ha : a < s.plat.bufBytes) (h : bufGood s) :
    bufGood (writeByte a b s) := ⟨Memory.wf_write a b h.1, Memory.below_write b ha h.2⟩

theorem bufGood_write32 {s : State} {a : Nat} (v : Word) (ha : a + 4 ≤ s.plat.bufBytes) (h : bufGood s) :
    bufGood (write32 a v s) := by
  have h0 := bufGood_writeByte (byte0 v) (show a < s.plat.bufBytes by omega) h
  have h1 := bufGood_writeByte (byte1 v) (show a + 1 < (writeByte a (byte0 v) s).plat.bufBytes by
    simp only [writeByte_plat]; omega) h0
  have h2 := bufGood_writeByte (byte2 v)
    (show a + 2 < (writeByte (a + 1) (byte1 v) (writeByte a (byte0 v) s)).plat.bufBytes by
      simp only [writeByte_plat]; omega) h1
  exact bufGood_writeByte (byte3 v) (by simp only [writeByte_plat]; omega) h2

theorem bufGood_write64 {s : State} {a : Nat} (v : DWord) (ha : a + 8 ≤ s.plat.bufBytes) (h : bufGood s) :
    bufGood (write64 a v s) :=
  bufGood_write32 _ (by simp only [write32_plat]; omega) (bufGood_write32 _ (by omega) h)

end Sys2Proof.Machine
end

