-- ==== Sys2Proof/Laws/Run.lean ====
section
/-! SUPPORT. Everything a command can do, said once: it is ignored, it takes the fault of its first failing
check, or it has its effect (60_exceptions.md R216, R217, R219). -/

namespace Sys2Proof.Machine

/-! ## The frame of checks -/

theorem firstFailure_none (checks : List (Bool × FaultCode)) :
    firstFailure checks = none ↔ ∀ c ∈ checks, c.1 = true := by
  induction checks with
  | nil => simp [firstFailure]
  | cons c rest ih =>
    obtain ⟨b, e⟩ := c
    cases b <;> simp [firstFailure, ih]

/-- The code reported is that of a check of the list. -/
theorem firstFailure_mem {checks : List (Bool × FaultCode)} {e : FaultCode}
    (h : firstFailure checks = some e) : e ∈ checks.map Prod.snd := by
  induction checks with
  | nil => simp [firstFailure] at h
  | cons c rest ih =>
    obtain ⟨b, e'⟩ := c
    cases b
    · simp only [firstFailure, Bool.false_eq_true, if_false, Option.some.injEq] at h
      exact h ▸ List.mem_cons_self
    · simp only [firstFailure, if_true] at h
      exact List.mem_cons_of_mem _ (ih h)

theorem runCommand_faulted (i : Instr) (checks : List (Bool × FaultCode)) (effect : State → State) {s : State}
    (h : s.latch.fault = true) : runCommand i checks effect s = s := by simp only [runCommand, h, if_true]

theorem runCommand_fails {i : Instr} {checks : List (Bool × FaultCode)} {effect : State → State} {s : State}
    {e : FaultCode} (h : s.latch.fault = false) (he : firstFailure checks = some e) :
    runCommand i checks effect s = raiseFault e (encode i) s := by
  simp only [runCommand, h, he, Bool.false_eq_true, if_false]

theorem runCommand_runs {i : Instr} {checks : List (Bool × FaultCode)} {effect : State → State} {s : State}
    (h : s.latch.fault = false) (he : ∀ c ∈ checks, c.1 = true) :
    runCommand i checks effect s = effect s := by
  simp only [runCommand, h, (firstFailure_none checks).2 he, Bool.false_eq_true, if_false]

/-- Everything `runCommand` can answer. -/
theorem runCommand_cases (i : Instr) (checks : List (Bool × FaultCode)) (effect : State → State) (s : State) :
    (s.latch.fault = true ∧ runCommand i checks effect s = s)
      ∨ (∃ e, s.latch.fault = false ∧ firstFailure checks = some e
          ∧ runCommand i checks effect s = raiseFault e (encode i) s)
      ∨ (s.latch.fault = false ∧ (∀ c ∈ checks, c.1 = true) ∧ runCommand i checks effect s = effect s) := by
  cases hf : s.latch.fault
  · cases he : firstFailure checks with
    | some e => exact .inr (.inl ⟨e, rfl, rfl, runCommand_fails hf he⟩)
    | none => exact .inr (.inr ⟨rfl, (firstFailure_none _).1 he, runCommand_runs hf ((firstFailure_none _).1 he)⟩)
  · exact .inl ⟨rfl, runCommand_faulted i checks effect hf⟩

/-! ## The commands in one table -/

/-- The checks of each command (60_exceptions.md R216); CLEANUP has none. -/
def checksOf (s : State) : Instr → List (Bool × FaultCode)
  | .keyinit => [(keyLengthOk s, .invalidKeyLength), (inBounds s (srcOffset s) (lenValue s), .bufferBounds)]
  | .cleanup | .setiv | .getiv => []
  | .encb | .decb => [(s.keyv, .noKey)]
  | .ecbenc | .ecbdec | .cbcenc | .cbcdec => bulkChecks s
  | .ld32 => [(inBounds s (srcOffset s) 4, .bufferBounds)]
  | .st32 => [(inBounds s (dstOffset s) 4, .bufferBounds)]
  | .ld64 => [(inBounds s (srcOffset s) 8, .bufferBounds)]
  | .st64 => [(inBounds s (dstOffset s) 8, .bufferBounds)]
  | .hexenc =>
    [(inBounds s (srcOffset s) (lenValue s) && inBounds s (dstOffset s) (2 * lenValue s), .bufferBounds)]
  | .hexdec =>
    [(inBounds s (srcOffset s) (2 * pairCount s) && inBounds s (dstOffset s) (pairCount s), .bufferBounds)]

/-- The effect of each command once its checks hold. -/
def effectOf (s : State) : Instr → State
  | .keyinit => keyinitEffect s
  | .cleanup => zeroSecrets s
  | .encb => setResult (encryptBlock s.cipher (s.regs.dhi, s.regs.dlo)).1
      (encryptBlock s.cipher (s.regs.dhi, s.regs.dlo)).2 s
  | .decb => setResult (decryptBlock s.cipher (s.regs.dhi, s.regs.dlo)).1
      (decryptBlock s.cipher (s.regs.dhi, s.regs.dlo)).2 s
  | .ecbenc => bulkEffect (ecbEncryptMode s.cipher) s
  | .ecbdec => bulkEffect (ecbDecryptMode s.cipher) s
  | .setiv => setIv (join s.regs.dhi s.regs.dlo) s
  | .getiv => setResult (hiHalf s.iv) (loHalf s.iv) s
  | .cbcenc => bulkEffect (cbcEncryptMode s.cipher) s
  | .cbcdec => bulkEffect (cbcDecryptMode s.cipher) s
  | .ld32 => setResult 0 (read32 s (srcOffset s)) s
  | .st32 => write32 (dstOffset s) s.regs.dlo s
  | .ld64 => setResult (hiHalf (read64 s (srcOffset s))) (loHalf (read64 s (srcOffset s))) s
  | .st64 => write64 (dstOffset s) (join s.regs.dhi s.regs.dlo) s
  | .hexenc => hexEncodeEffect s
  | .hexdec => hexDecodeEffect s

theorem runCommand_congr {i : Instr} {checks : List (Bool × FaultCode)} {f g : State → State} {s : State}
    (h : f s = g s) : runCommand i checks f s = runCommand i checks g s := by simp only [runCommand, h]

/-- Every command but CLEANUP is its checks and its effect. -/
theorem exec_eq_runCommand {i : Instr} (h : i ≠ .cleanup) (s : State) :
    exec i s = .next (runCommand i (checksOf s i) (fun s => effectOf s i) s) := by
  cases i <;> first | exact absurd rfl h | exact congrArg Host.Outcome.next (runCommand_congr rfl)

@[simp] theorem exec_cleanup (s : State) : exec .cleanup s = .next (zeroSecrets s) := rfl

/-- A faulted engine ignores every command but CLEANUP. -/
theorem exec_ignored {i : Instr} {s : State} (h : i ≠ .cleanup) (hf : s.latch.fault = true) :
    exec i s = .next s := by rw [exec_eq_runCommand h, runCommand_faulted _ _ _ hf]

/-- A failing check is reported, and nothing else happens. -/
theorem exec_fails {i : Instr} {s : State} {e : FaultCode} (h : i ≠ .cleanup) (hf : s.latch.fault = false)
    (he : firstFailure (checksOf s i) = some e) : exec i s = .next (raiseFault e (encode i) s) := by
  rw [exec_eq_runCommand h, runCommand_fails hf he]

/-- With FAULT = 0 and all checks good the command has its effect. -/
theorem exec_runs {i : Instr} {s : State} (hf : s.latch.fault = false)
    (he : ∀ c ∈ checksOf s i, c.1 = true) : exec i s = .next (effectOf s i) := by
  by_cases h : i = .cleanup
  · subst h; rfl
  · rw [exec_eq_runCommand h, runCommand_runs hf he]

/-- Everything a command can do. -/
theorem exec_cases (i : Instr) (s : State) :
    (i ≠ .cleanup ∧ s.latch.fault = true ∧ exec i s = .next s)
      ∨ (∃ e, i ≠ .cleanup ∧ s.latch.fault = false ∧ firstFailure (checksOf s i) = some e
          ∧ exec i s = .next (raiseFault e (encode i) s))
      ∨ ((i = .cleanup ∨ s.latch.fault = false) ∧ (∀ c ∈ checksOf s i, c.1 = true)
          ∧ exec i s = .next (effectOf s i)) := by
  by_cases h : i = .cleanup
  · subst h; exact .inr (.inr ⟨.inl rfl, by simp [checksOf], rfl⟩)
  · rw [exec_eq_runCommand h]
    rcases runCommand_cases i (checksOf s i) (fun s => effectOf s i) s with ⟨hf, e⟩ | ⟨c, hf, hc, e⟩ | ⟨hf, hc, e⟩
    · exact .inl ⟨h, hf, by rw [e]⟩
    · exact .inr (.inl ⟨c, h, hf, hc, by rw [e]⟩)
    · exact .inr (.inr ⟨.inr hf, hc, by rw [e]⟩)

/-- Every code a command's checks can report is one it may raise (60_exceptions.md R210). -/
theorem checksOf_code {s : State} {i : Instr} {e : FaultCode} (h : firstFailure (checksOf s i) = some e) :
    e = .bufferBounds ∨ (e = .noKey ∧ s.keyv = false) ∨ (e = .invalidKeyLength ∧ i = .keyinit) := by
  cases hk : s.keyv <;> cases i <;>
    simp only [checksOf, bulkChecks, firstFailure, hk] at h <;> (try split_ifs at h) <;> simp_all

theorem inBounds_iff (s : State) (a n : Nat) : inBounds s a n = true ↔ a + n ≤ s.plat.bufBytes := by
  simp only [inBounds, decide_eq_true_eq]

theorem keyLengthOk_iff (s : State) : keyLengthOk s = true ↔ 1 ≤ lenValue s ∧ lenValue s ≤ 56 := by
  simp only [keyLengthOk, Bool.and_eq_true]
  exact ⟨fun h => ⟨of_decide_eq_true h.1, of_decide_eq_true h.2⟩,
    fun h => ⟨decide_eq_true h.1, decide_eq_true h.2⟩⟩

end Sys2Proof.Machine
end

