-- ==== Sys2Proof/Laws/Blocks.lean ====
section
/-! SUPPORT. The loop of the bulk block commands (42_ecb_core.md R138, 20_memory.md R66): its frame, its last
turn, its form as a fold, and what it reads and writes. -/

namespace Sys2Proof.Machine

variable (mode : DWord → DWord → DWord × DWord)

/-- One turn of the loop on the block at `src`, its result to `dst`. -/
def blockTurn (src dst : Nat) (s : State) : State :=
  setIv (mode s.iv (read64 s src)).2 (write64 dst (mode s.iv (read64 s src)).1 s)

theorem blockLoop_cons (k src dst : Nat) (s : State) :
    blockLoop mode (k + 1) src dst s = blockLoop mode k (src + 8) (dst + 8) (blockTurn mode src dst s) := rfl

/-- The loop's last turn comes after all the others. -/
theorem blockLoop_snoc (k src dst : Nat) (s : State) :
    blockLoop mode (k + 1) src dst s
      = blockTurn mode (src + 8 * k) (dst + 8 * k) (blockLoop mode k src dst s) := by
  induction k generalizing src dst s with
  | zero => rfl
  | succ k ih =>
    rw [blockLoop_cons, ih, blockLoop_cons]
    congr 1 <;> omega

/-- The loop as a fold over the block numbers. -/
theorem blockLoop_eq_foldl (k src dst : Nat) (s : State) :
    blockLoop mode k src dst s
      = (List.range k).foldl (fun u b => blockTurn mode (src + 8 * b) (dst + 8 * b) u) s := by
  induction k with
  | zero => rfl
  | succ k ih => rw [blockLoop_snoc, ih, List.range_succ, List.foldl_append]; rfl

/-- The loop changes IV and BUF only. -/
theorem blockTurn_frame (src dst : Nat) (s : State) :
    blockTurn mode src dst s
      = { s with iv := (blockTurn mode src dst s).iv, buf := (blockTurn mode src dst s).buf } := rfl

theorem blockLoop_frame (k src dst : Nat) (s : State) :
    blockLoop mode k src dst s
      = { s with iv := (blockLoop mode k src dst s).iv, buf := (blockLoop mode k src dst s).buf } := by
  induction k with
  | zero => rfl
  | succ k ih =>
    rw [blockLoop_snoc]
    generalize blockLoop mode k src dst s = u at ih
    rw [ih]; rfl

section
variable (k src dst : Nat) (s : State)
@[simp] theorem blockLoop_plat : (blockLoop mode k src dst s).plat = s.plat := by rw [blockLoop_frame]
@[simp] theorem blockLoop_cipher : (blockLoop mode k src dst s).cipher = s.cipher := by rw [blockLoop_frame]
@[simp] theorem blockLoop_keyv : (blockLoop mode k src dst s).keyv = s.keyv := by rw [blockLoop_frame]
@[simp] theorem blockLoop_latch : (blockLoop mode k src dst s).latch = s.latch := by rw [blockLoop_frame]
@[simp] theorem blockLoop_busy : (blockLoop mode k src dst s).busy = s.busy := by rw [blockLoop_frame]
@[simp] theorem blockLoop_regs : (blockLoop mode k src dst s).regs = s.regs := by rw [blockLoop_frame]
@[simp] theorem blockLoop_epoch : (blockLoop mode k src dst s).epoch = s.epoch := by rw [blockLoop_frame]
@[simp] theorem blockLoop_host : (blockLoop mode k src dst s).host = s.host := by rw [blockLoop_frame]
end

/-- Every byte outside the destination range is unchanged. -/
theorem readByte_blockLoop_outside (k src dst a : Nat) (s : State) (h : a < dst ∨ dst + 8 * k ≤ a) :
    readByte (blockLoop mode k src dst s) a = readByte s a := by
  induction k with
  | zero => rfl
  | succ k ih =>
    rw [blockLoop_snoc, blockTurn, readByte_setIv, readByte_write64_outside _ _ _ _ (by omega), ih (by omega)]

theorem read64_blockLoop_outside (k src dst a : Nat) (s : State) (h : a + 8 ≤ dst ∨ dst + 8 * k ≤ a) :
    read64 (blockLoop mode k src dst s) a = read64 s a :=
  read64_congr fun i hi => readByte_blockLoop_outside mode k src dst (a + i) s (by omega)

theorem bufGood_blockLoop {k src dst : Nat} {s : State} (hd : dst + 8 * k ≤ s.plat.bufBytes) (h : bufGood s) :
    bufGood (blockLoop mode k src dst s) := by
  induction k with
  | zero => exact h
  | succ k ih =>
    rw [blockLoop_snoc]
    exact bufGood_write64 _ (by rw [blockLoop_plat]; omega) (ih (by omega))

/-- The block `b` of the destination is what its own turn wrote: later turns write past it. -/
theorem read64_blockLoop_dst (k b src dst : Nat) (s : State) (h : b < k) :
    read64 (blockLoop mode k src dst s) (dst + 8 * b)
      = (mode (blockLoop mode b src dst s).iv (read64 (blockLoop mode b src dst s) (src + 8 * b))).1 := by
  induction k with
  | zero => omega
  | succ k ih =>
    rw [blockLoop_snoc, blockTurn, read64_setIv]
    rcases Nat.lt_succ_iff_lt_or_eq.1 h with hb | rfl
    · rw [read64_write64_outside _ _ _ _ (by omega), ih hb]
    · rw [read64_write64]

theorem blockLoop_iv_succ (k src dst : Nat) (s : State) :
    (blockLoop mode (k + 1) src dst s).iv
      = (mode (blockLoop mode k src dst s).iv (read64 (blockLoop mode k src dst s) (src + 8 * k))).2 := by
  rw [blockLoop_snoc]; rfl

/-- In place, or with the ranges of `n` blocks apart, block `b` is read as it stood before the loop. -/
theorem read64_blockLoop_src {k b n src dst : Nat} (s : State) (hk : k ≤ b) (hb : b < n)
    (h : src = dst ∨ src + 8 * n ≤ dst ∨ dst + 8 * n ≤ src) :
    read64 (blockLoop mode k src dst s) (src + 8 * b) = read64 s (src + 8 * b) :=
  read64_blockLoop_outside mode k src dst _ s (by omega)

/-- The loop on `j + k` blocks is the loop on the first `j`, then the loop on the next `k`. -/
theorem blockLoop_add (j k src dst : Nat) (s : State) :
    blockLoop mode (j + k) src dst s
      = blockLoop mode k (src + 8 * j) (dst + 8 * j) (blockLoop mode j src dst s) := by
  induction k with
  | zero => rfl
  | succ k ih =>
    rw [← Nat.add_assoc, blockLoop_snoc, ih, blockLoop_snoc]
    congr 1 <;> omega

/-- The loop reads BUF, IV and the free bytes' key, and nothing else. -/
theorem blockLoop_congr (k src dst : Nat) {s t : State} (hb : t.buf = s.buf) (he : t.epoch = s.epoch)
    (hv : t.iv = s.iv) :
    (blockLoop mode k src dst t).buf = (blockLoop mode k src dst s).buf
      ∧ (blockLoop mode k src dst t).iv = (blockLoop mode k src dst s).iv := by
  induction k with
  | zero => exact ⟨hb, hv⟩
  | succ k ih =>
    have hr : read64 (blockLoop mode k src dst t) (src + 8 * k) = read64 (blockLoop mode k src dst s) (src + 8 * k) :=
      read64_congr fun i _ => readByte_congr ih.1 (by rw [blockLoop_epoch, blockLoop_epoch, he]) _
    rw [blockLoop_snoc, blockLoop_snoc]
    simp only [blockTurn, setIv_buf, setIv_iv, hr, ih.2, write64_buf, ih.1, and_self]

/-! ## The modes -/

theorem blockLoop_ecb_iv (f : DWord → DWord) (k src dst : Nat) (s : State) :
    (blockLoop (fun iv x => (f x, iv)) k src dst s).iv = s.iv := by
  induction k with
  | zero => rfl
  | succ k ih => rw [blockLoop_iv_succ, ih]

/-- ECB: with the ranges in place or apart, block `b` of the destination is the block of the source, changed. -/
theorem read64_blockLoop_ecb (f : DWord → DWord) (s : State) {b src dst k : Nat} (hb : b < k)
    (h : src = dst ∨ src + 8 * k ≤ dst ∨ dst + 8 * k ≤ src) :
    read64 (blockLoop (fun iv x => (f x, iv)) k src dst s) (dst + 8 * b) = f (read64 s (src + 8 * b)) := by
  rw [read64_blockLoop_dst _ _ _ _ _ _ hb, read64_blockLoop_src _ s (Nat.le_refl b) hb h]

/-- CBC encryption: the chaining value is the last block written, for every overlap. -/
theorem blockLoop_cbcEncrypt_iv (c : Cipher) (s : State) (src dst k : Nat) :
    (blockLoop (cbcEncryptMode c) k src dst s).iv =
      if k = 0 then s.iv else read64 (blockLoop (cbcEncryptMode c) k src dst s) (dst + 8 * (k - 1)) := by
  cases k with
  | zero => rfl
  | succ k =>
    rw [if_neg (by omega), blockLoop_iv_succ, Nat.add_sub_cancel,
      read64_blockLoop_dst _ _ _ _ _ _ (Nat.lt_succ_self k)]
    rfl

/-- CBC encryption, block by block. -/
theorem read64_blockLoop_cbcEncrypt (c : Cipher) (s : State) {src dst k b : Nat} (hb : b < k)
    (h : src = dst ∨ src + 8 * k ≤ dst ∨ dst + 8 * k ≤ src) :
    read64 (blockLoop (cbcEncryptMode c) k src dst s) (dst + 8 * b) =
      encrypt64 c (read64 s (src + 8 * b)
        ^^^ (if b = 0 then s.iv else read64 (blockLoop (cbcEncryptMode c) k src dst s) (dst + 8 * (b - 1)))) := by
  rw [read64_blockLoop_dst _ _ _ _ _ _ hb, read64_blockLoop_src _ s (Nat.le_refl b) hb h,
    blockLoop_cbcEncrypt_iv]
  refine congrArg (fun x => encrypt64 c (read64 s (src + 8 * b) ^^^ x)) ?_
  split_ifs with h0
  · rfl
  · rw [read64_blockLoop_dst _ _ _ _ _ _ (show b - 1 < k by omega),
      read64_blockLoop_dst _ _ _ _ _ _ (show b - 1 < b by omega)]

/-- CBC decryption: the chaining value is the last ciphertext block read. -/
theorem blockLoop_cbcDecrypt_iv (c : Cipher) (s : State) {src dst k n : Nat} (hk : k ≤ n)
    (h : src = dst ∨ src + 8 * n ≤ dst ∨ dst + 8 * n ≤ src) :
    (blockLoop (cbcDecryptMode c) k src dst s).iv = if k = 0 then s.iv else read64 s (src + 8 * (k - 1)) := by
  cases k with
  | zero => rfl
  | succ k =>
    rw [if_neg (by omega), blockLoop_iv_succ, Nat.add_sub_cancel]
    exact read64_blockLoop_src _ s (Nat.le_refl k) (by omega) h

/-- CBC decryption, block by block. -/
theorem read64_blockLoop_cbcDecrypt (c : Cipher) (s : State) {src dst k b : Nat} (hb : b < k)
    (h : src = dst ∨ src + 8 * k ≤ dst ∨ dst + 8 * k ≤ src) :
    read64 (blockLoop (cbcDecryptMode c) k src dst s) (dst + 8 * b) =
      decrypt64 c (read64 s (src + 8 * b)) ^^^ (if b = 0 then s.iv else read64 s (src + 8 * (b - 1))) := by
  rw [read64_blockLoop_dst _ _ _ _ _ _ hb, read64_blockLoop_src _ s (Nat.le_refl b) hb h,
    blockLoop_cbcDecrypt_iv c s (Nat.le_of_lt hb) h]
  rfl

/-- Equal blocks are equal bytes. -/
theorem readByte_of_read64 {s t : State} {a b n : Nat}
    (h : ∀ i, 8 * i < n → read64 t (a + 8 * i) = read64 s (b + 8 * i)) (h8 : n % 8 = 0) {j : Nat} (hj : j < n) :
    readByte t (a + j) = readByte s (b + j) := by
  have h1 := blockByte_read64 t (a + 8 * (j / 8)) (j % 8) (by omega)
  have h2 := blockByte_read64 s (b + 8 * (j / 8)) (j % 8) (by omega)
  rw [h (j / 8) (by omega), h2] at h1
  rw [show a + 8 * (j / 8) + j % 8 = a + j by omega, show b + 8 * (j / 8) + j % 8 = b + j by omega] at h1
  exact h1.symm

/-- Whole blocks: the rounded length is a multiple of 8. -/
theorem roundedLength_blocks (s : State) : 8 * (roundedLength s / Config.blockBytes) = roundedLength s := by
  simp only [roundedLength, Config.blockBytes]; omega

theorem bulkChecks_hold {s : State} (hk : s.keyv = true)
    (hs : srcOffset s + roundedLength s ≤ s.plat.bufBytes) (hd : dstOffset s + roundedLength s ≤ s.plat.bufBytes) :
    ∀ c ∈ bulkChecks s, c.1 = true := by
  simp [bulkChecks, hk, inBounds_iff, hs, hd]

end Sys2Proof.Machine
end

