-- ==== Sys2Proof/Laws/Cipher.lean ====
section
/-! SUPPORT. The round structure of the cipher: a round undoes itself, decryption is encryption with the
halves exchanged, and what a write to the tables leaves alone. -/

namespace Sys2Proof.Machine

theorem xor_xor_cancel_right (a b c : Word) : a ^^^ b ^^^ c ^^^ b ^^^ c = a := by
  rw [BitVec.xor_assoc a b c, BitVec.xor_assoc (a ^^^ (b ^^^ c)) b c, BitVec.xor_assoc a, BitVec.xor_self,
    BitVec.xor_zero]

/-- An encryption round undoes itself: it changes one half by a function of the other. -/
theorem encryptRound_twice (c : Cipher) (b : Word × Word) (r : Fin 18) :
    encryptRound c (encryptRound c b r) r = b := by
  obtain ⟨x, y⟩ := b
  simp only [encryptRound]
  split_ifs <;> simp only [xor_xor_cancel_right]

/-- A decryption round is the encryption round with the halves exchanged. -/
theorem decryptRound_swap (c : Cipher) (b : Word × Word) (r : Fin 18) :
    decryptRound c b.swap r = (encryptRound c b r).swap := by
  obtain ⟨x, y⟩ := b
  simp only [encryptRound, decryptRound, Prod.swap]
  rcases Nat.mod_two_eq_zero_or_one r.val with h | h <;> simp [h]

theorem foldl_decryptRound_swap (c : Cipher) (rs : List (Fin 18)) (b : Word × Word) :
    rs.foldl (decryptRound c) b.swap = (rs.foldl (encryptRound c) b).swap := by
  induction rs generalizing b with
  | nil => rfl
  | cons r rest ih => rw [List.foldl_cons, List.foldl_cons, decryptRound_swap, ih]

/-- Running rounds and then the same rounds backwards gives the block back. -/
theorem foldl_encryptRound_reverse (c : Cipher) (rs : List (Fin 18)) (b : Word × Word) :
    rs.reverse.foldl (encryptRound c) (rs.foldl (encryptRound c) b) = b := by
  induction rs generalizing b with
  | nil => rfl
  | cons r rest ih =>
    rw [List.reverse_cons, List.foldl_append, List.foldl_cons (l := rest), ih]
    exact encryptRound_twice c b r

theorem foldl_encryptRound_forward (c : Cipher) (rs : List (Fin 18)) (b : Word × Word) :
    rs.foldl (encryptRound c) (rs.reverse.foldl (encryptRound c) b) = b := by
  have := foldl_encryptRound_reverse c rs.reverse b
  rwa [List.reverse_reverse] at this

/-! ## Table entries -/

theorem pEntry_setP (c : Cipher) (i k : Fin 18) (w : Word) :
    pEntry (setP c i w) k = if k = i then w else pEntry c k := by
  simp only [pEntry, setP, Vector.get_eq_getElem, Vector.getElem_set, Fin.ext_iff, eq_comm]

@[simp] theorem pEntry_setS (c : Cipher) (k : Fin 4) (j : Fin 256) (w : Word) (i : Fin 18) :
    pEntry (setS c k j w) i = pEntry c i := rfl

@[simp] theorem sEntry_setP (c : Cipher) (i : Fin 18) (w : Word) (k : Fin 4) (j : Byte) :
    sEntry (setP c i w) k j = sEntry c k j := rfl

theorem sEntry_setS (c : Cipher) (k k' : Fin 4) (j : Fin 256) (j' : Byte) (w : Word) :
    sEntry (setS c k j w) k' j' = if k' = k ∧ j'.toFin = j then w else sEntry c k' j' := by
  by_cases hk : k' = k
  · subst hk
    simp only [sEntry, setS, Vector.get_eq_getElem, Vector.getElem_set, Fin.ext_iff, true_and, if_true]
    simp only [eq_comm]
  · have hk' : k.val ≠ k'.val := fun h => hk (Fin.ext h.symm)
    rw [if_neg fun h => hk h.1]
    simp only [sEntry, setS, Vector.get_eq_getElem, Vector.getElem_set, if_neg hk']

@[simp] theorem setP_s (c : Cipher) (i : Fin 18) (w : Word) : (setP c i w).s = c.s := rfl

/-- Two sets of tables are equal when their P entries and their S-boxes are. -/
theorem Cipher.eq_of_entries {c d : Cipher} (hp : ∀ i, pEntry c i = pEntry d i) (hs : c.s = d.s) : c = d := by
  obtain ⟨cp, cs⟩ := c
  obtain ⟨dp, ds⟩ := d
  simp only at hs
  subst hs
  simp only [Cipher.mk.injEq, and_true]
  apply Vector.ext
  intro i hi
  exact hp ⟨i, hi⟩

theorem Cipher.zero_entries : (∀ k, pEntry Cipher.zero k = 0) ∧ ∀ k j, sEntry Cipher.zero k j = 0 := by
  constructor
  · intro k
    simp [pEntry, Cipher.zero, Vector.get_eq_getElem]
  · intro k j
    simp [sEntry, Cipher.zero, Vector.get_eq_getElem]

end Sys2Proof.Machine
end

