-- ==== Sys2Proof/Laws/Codes.lean ====
section
/-! SUPPORT. Which check fails first, command by command (60_exceptions.md R216), and the command word as its
two fields (30_encoding.md R70). -/

namespace Sys2Proof.Machine

/-- A word is its RSV field above its OP field. -/
theorem word_eq_fields (w : Word) : w = (rsvField w ++ opField w : BitVec (24 + 8)) := by
  apply BitVec.eq_of_toNat_eq
  rw [append_toNat]
  simp only [rsvField, opField, BitVec.extractLsb'_toNat, Nat.shiftRight_eq_div_pow]
  have := w.isLt
  omega

/-- The table of R73 read by number. -/
theorem lookupOp_iff (op : BitVec 8) (i : Instr) : lookupOp op opcodeMap = some i ↔ op = opNumber i := by
  cases i <;> revert op <;> decide

/-- A command that decodes is the word of its number. -/
theorem decode_ok {w : Word} {i : Instr} (h : decode w = .ok i) : w = encode i := by
  unfold decode at h
  split_ifs at h with hr
  cases hl : lookupOp (opField w) opcodeMap with
  | none => simp [hl] at h
  | some j =>
    simp only [hl, Except.ok.injEq] at h
    subst h
    rw [word_eq_fields w, hr, (lookupOp_iff _ _).1 hl]
    cases j <;> rfl

/-- The commands that need a key. -/
theorem firstFailure_noKey {s : State} {i : Instr} (hk : s.keyv = false)
    (h : i = .encb ∨ i = .decb ∨ i = .ecbenc ∨ i = .ecbdec ∨ i = .cbcenc ∨ i = .cbcdec) :
    firstFailure (checksOf s i) = some .noKey := by
  rcases h with rfl | rfl | rfl | rfl | rfl | rfl <;> simp [checksOf, bulkChecks, firstFailure, hk]

theorem firstFailure_keyLength {s : State} (h : lenValue s < 1 ∨ 56 < lenValue s) :
    firstFailure (checksOf s .keyinit) = some .invalidKeyLength := by
  have hk := keyLengthOk_iff s
  have : keyLengthOk s = false := by
    cases hh : keyLengthOk s
    · rfl
    · have := hk.1 hh; omega
  simp [checksOf, firstFailure, this]

/-- Every code a command's checks report is one the command may raise (R210). -/
theorem firstFailure_mayRaise {s : State} {i : Instr} {e : FaultCode} (h : firstFailure (checksOf s i) = some e) :
    e ∈ (match i with
      | .keyinit => [FaultCode.invalidKeyLength, .bufferBounds]
      | .encb | .decb => [.noKey]
      | .ecbenc | .ecbdec | .cbcenc | .cbcdec => [.noKey, .bufferBounds]
      | .ld32 | .st32 | .ld64 | .st64 | .hexenc | .hexdec => [.bufferBounds]
      | .cleanup | .setiv | .getiv => []) := by
  have hm := firstFailure_mem h
  cases i <;> simp [checksOf, bulkChecks] at hm <;> simp [hm]

end Sys2Proof.Machine
end

