-- ==== Sys2Proof/Laws/Hex.lean ====
section
/-! SUPPORT. The loops of HEXENC and HEXDEC (44_codec.md R186, R188): frames, last turns, folds, and that
reading a written pair of characters gives the byte back. -/

namespace Sys2Proof.Machine

/-! ## Digits -/

theorem hexVal_hexChar (v : BitVec 4) : hexVal (hexChar v) = some v := by
  revert v; decide

theorem nibbles_join (b : Byte) : (highNibble b ++ lowNibble b : BitVec (4 + 4)) = b := by
  revert b; decide

/-- The two characters of a byte read back as the byte. -/
theorem hexPair_hexChar (b : Byte) : hexPair (hexChar (highNibble b)) (hexChar (lowNibble b)) = some b := by
  simp only [hexPair, hexVal_hexChar, nibbles_join]

/-! ## HEXENC -/

/-- One turn of HEXENC's loop. -/
def hexEncodeTurn (src dst : Nat) (s : State) : State :=
  writeByte (dst + 1) (hexChar (lowNibble (readByte s src))) (writeByte dst (hexChar (highNibble (readByte s src))) s)

theorem hexEncodeLoop_cons (m src dst : Nat) (s : State) :
    hexEncodeLoop (m + 1) src dst s = hexEncodeLoop m (src + 1) (dst + 2) (hexEncodeTurn src dst s) := rfl

theorem hexEncodeLoop_snoc (m src dst : Nat) (s : State) :
    hexEncodeLoop (m + 1) src dst s = hexEncodeTurn (src + m) (dst + 2 * m) (hexEncodeLoop m src dst s) := by
  induction m generalizing src dst s with
  | zero => rfl
  | succ m ih =>
    rw [hexEncodeLoop_cons, ih, hexEncodeLoop_cons]
    congr 1 <;> omega

theorem hexEncodeLoop_eq_foldl (m src dst : Nat) (s : State) :
    hexEncodeLoop m src dst s
      = (List.range m).foldl (fun u i => hexEncodeTurn (src + i) (dst + 2 * i) u) s := by
  induction m with
  | zero => rfl
  | succ m ih => rw [hexEncodeLoop_snoc, ih, List.range_succ, List.foldl_append]; rfl

/-- HEXENC's loop changes BUF only. -/
theorem hexEncodeLoop_frame (m src dst : Nat) (s : State) :
    hexEncodeLoop m src dst s = { s with buf := (hexEncodeLoop m src dst s).buf } := by
  induction m with
  | zero => rfl
  | succ m ih =>
    rw [hexEncodeLoop_snoc]
    generalize hexEncodeLoop m src dst s = u at ih
    rw [ih]; rfl

@[simp] theorem hexEncodeLoop_plat (m src dst : Nat) (s : State) : (hexEncodeLoop m src dst s).plat = s.plat := by
  rw [hexEncodeLoop_frame]

theorem readByte_hexEncodeTurn (src dst a : Nat) (s : State) :
    readByte (hexEncodeTurn src dst s) a =
      if a = dst + 1 then hexChar (lowNibble (readByte s src))
      else if a = dst then hexChar (highNibble (readByte s src)) else readByte s a := by
  simp only [hexEncodeTurn, readByte_writeByte]

theorem readByte_hexEncodeLoop_outside (m src dst a : Nat) (s : State) (h : a < dst ∨ dst + 2 * m ≤ a) :
    readByte (hexEncodeLoop m src dst s) a = readByte s a := by
  induction m with
  | zero => rfl
  | succ m ih =>
    rw [hexEncodeLoop_snoc, readByte_hexEncodeTurn, if_neg (by omega), if_neg (by omega), ih (by omega)]

/-- With the ranges apart, character pair `i` is that of byte `i` as it stood before. -/
theorem readByte_hexEncodeLoop_dst (m n i src dst : Nat) (s : State) (hi : i < m) (hm : m ≤ n)
    (h : src + n ≤ dst ∨ dst + 2 * n ≤ src) :
    readByte (hexEncodeLoop m src dst s) (dst + 2 * i) = hexChar (highNibble (readByte s (src + i)))
      ∧ readByte (hexEncodeLoop m src dst s) (dst + 2 * i + 1) = hexChar (lowNibble (readByte s (src + i))) := by
  induction m with
  | zero => omega
  | succ m ih =>
    rw [hexEncodeLoop_snoc, readByte_hexEncodeTurn, readByte_hexEncodeTurn]
    rcases Nat.lt_succ_iff_lt_or_eq.1 hi with hi | rfl
    · rw [if_neg (by omega), if_neg (by omega), if_neg (by omega), if_neg (by omega)]
      exact ih hi (by omega)
    · rw [if_neg (by omega), if_pos rfl, if_pos rfl,
        readByte_hexEncodeLoop_outside _ _ _ _ _ (by omega)]
      exact ⟨rfl, rfl⟩

theorem bufGood_hexEncodeLoop {m src dst : Nat} {s : State} (hd : dst + 2 * m ≤ s.plat.bufBytes)
    (h : bufGood s) : bufGood (hexEncodeLoop m src dst s) := by
  induction m with
  | zero => exact h
  | succ m ih =>
    rw [hexEncodeLoop_snoc]
    refine bufGood_writeByte _ ?_ (bufGood_writeByte _ ?_ (ih (by omega)))
    · simp only [writeByte_plat, hexEncodeLoop_plat]; omega
    · rw [hexEncodeLoop_plat]; omega

/-! ## HEXDEC -/

/-- One turn of HEXDEC's loop, `u.1` bytes having been written. -/
def hexDecodeTurn (src dst : Nat) (u : Nat × State) : Nat × State :=
  match hexPair (readByte u.2 src) (readByte u.2 (src + 1)) with
  | some b => (u.1 + 1, writeByte (dst + u.1) b u.2)
  | none => u

theorem hexDecodeLoop_cons (p src dst : Nat) (s : State) :
    hexDecodeLoop (p + 1) src dst s =
      ((hexDecodeTurn src dst (0, s)).1
          + (hexDecodeLoop p (src + 2) (dst + (hexDecodeTurn src dst (0, s)).1) (hexDecodeTurn src dst (0, s)).2).1,
        (hexDecodeLoop p (src + 2) (dst + (hexDecodeTurn src dst (0, s)).1) (hexDecodeTurn src dst (0, s)).2).2) := by
  simp only [hexDecodeLoop, hexDecodeTurn]
  cases hexPair (readByte s src) (readByte s (src + 1)) <;> simp [Nat.add_comm]

theorem hexDecodeTurn_shift (src dst k n : Nat) (s : State) :
    hexDecodeTurn src dst (k + n, s)
      = (k + (hexDecodeTurn src (dst + k) (n, s)).1, (hexDecodeTurn src (dst + k) (n, s)).2) := by
  simp only [hexDecodeTurn]
  cases hexPair (readByte s src) (readByte s (src + 1)) <;> simp [Nat.add_assoc]

theorem hexDecodeLoop_snoc (p src dst : Nat) (s : State) :
    hexDecodeLoop (p + 1) src dst s = hexDecodeTurn (src + 2 * p) dst (hexDecodeLoop p src dst s) := by
  induction p generalizing src dst s with
  | zero => rw [hexDecodeLoop_cons]; simp [hexDecodeLoop]
  | succ p ih =>
    rw [hexDecodeLoop_cons, ih, hexDecodeLoop_cons p, hexDecodeTurn_shift, show src + 2 + 2 * p = src + 2 * (p + 1) by omega]

theorem hexDecodeLoop_eq_foldl (p src dst : Nat) (s : State) :
    hexDecodeLoop p src dst s
      = (List.range p).foldl (fun u i => hexDecodeTurn (src + 2 * i) dst u) (0, s) := by
  induction p with
  | zero => rfl
  | succ p ih => rw [hexDecodeLoop_snoc, ih, List.range_succ, List.foldl_append]; rfl

theorem hexDecodeTurn_frame (src dst : Nat) (u : Nat × State) :
    (hexDecodeTurn src dst u).2 = { u.2 with buf := (hexDecodeTurn src dst u).2.buf } := by
  simp only [hexDecodeTurn]
  cases hexPair (readByte u.2 src) (readByte u.2 (src + 1)) <;> rfl

/-- HEXDEC's loop changes BUF only. -/
theorem hexDecodeLoop_frame (p src dst : Nat) (s : State) :
    (hexDecodeLoop p src dst s).2 = { s with buf := (hexDecodeLoop p src dst s).2.buf } := by
  induction p with
  | zero => rfl
  | succ p ih =>
    rw [hexDecodeLoop_snoc, hexDecodeTurn_frame]
    generalize hexDecodeLoop p src dst s = u at ih
    rw [ih]

@[simp] theorem hexDecodeLoop_plat (p src dst : Nat) (s : State) :
    (hexDecodeLoop p src dst s).2.plat = s.plat := by rw [hexDecodeLoop_frame]

/-- A pair is decoded to at most one byte. -/
theorem hexDecodeTurn_count (src dst : Nat) (u : Nat × State) :
    u.1 ≤ (hexDecodeTurn src dst u).1 ∧ (hexDecodeTurn src dst u).1 ≤ u.1 + 1 := by
  simp only [hexDecodeTurn]
  cases hexPair (readByte u.2 src) (readByte u.2 (src + 1)) <;> simp

theorem hexDecodeLoop_count (p src dst : Nat) (s : State) : (hexDecodeLoop p src dst s).1 ≤ p := by
  induction p with
  | zero => exact Nat.le_refl 0
  | succ p ih =>
    rw [hexDecodeLoop_snoc]
    exact (hexDecodeTurn_count _ _ _).2.trans (Nat.succ_le_succ ih)

theorem readByte_hexDecodeTurn_outside (src dst a : Nat) (u : Nat × State)
    (h : a < dst ∨ dst + (hexDecodeTurn src dst u).1 ≤ a) :
    readByte (hexDecodeTurn src dst u).2 a = readByte u.2 a := by
  revert h
  simp only [hexDecodeTurn]
  cases hexPair (readByte u.2 src) (readByte u.2 (src + 1)) with
  | none => intro _; rfl
  | some b =>
    intro h
    simp only at h
    rw [readByte_writeByte, if_neg (by omega)]

theorem readByte_hexDecodeLoop_outside (p src dst a : Nat) (s : State)
    (h : a < dst ∨ dst + (hexDecodeLoop p src dst s).1 ≤ a) :
    readByte (hexDecodeLoop p src dst s).2 a = readByte s a := by
  induction p with
  | zero => rfl
  | succ p ih =>
    rw [hexDecodeLoop_snoc] at h ⊢
    have := hexDecodeTurn_count (src + 2 * p) dst (hexDecodeLoop p src dst s)
    rw [readByte_hexDecodeTurn_outside _ _ _ _ h, ih (by omega)]

theorem bufGood_hexDecodeLoop {p src dst : Nat} {s : State} (hd : dst + p ≤ s.plat.bufBytes)
    (h : bufGood s) : bufGood (hexDecodeLoop p src dst s).2 := by
  induction p with
  | zero => exact h
  | succ p ih =>
    rw [hexDecodeLoop_snoc]
    have hc := hexDecodeLoop_count p src dst s
    simp only [hexDecodeTurn]
    cases hexPair (readByte (hexDecodeLoop p src dst s).2 (src + 2 * p))
        (readByte (hexDecodeLoop p src dst s).2 (src + 2 * p + 1)) with
    | none => exact ih (by omega)
    | some b => exact bufGood_writeByte b (by rw [hexDecodeLoop_plat]; omega) (ih (by omega))

/-- A run of valid pairs is decoded whole, the reads being those of the state before: pair `i` is never
overwritten before it is read, since the bytes written lie apart from it or before it. -/
theorem hexDecodeLoop_valid (p n src dst : Nat) (s : State) (f : Nat → Byte) (hp : p ≤ n)
    (hv : ∀ i < n, hexPair (readByte s (src + 2 * i)) (readByte s (src + 2 * i + 1)) = some (f i))
    (h : dst = src ∨ dst + n ≤ src ∨ src + 2 * n ≤ dst) :
    (hexDecodeLoop p src dst s).1 = p
      ∧ ∀ j < p, readByte (hexDecodeLoop p src dst s).2 (dst + j) = f j := by
  induction p with
  | zero => exact ⟨rfl, fun j hj => by omega⟩
  | succ p ih =>
    obtain ⟨hc, hr⟩ := ih (by omega)
    have hin : ∀ a, src + 2 * p ≤ a → a < src + 2 * n →
        readByte (hexDecodeLoop p src dst s).2 a = readByte s a := fun a h1 h2 =>
      readByte_hexDecodeLoop_outside _ _ _ _ _ (by rw [hc]; omega)
    rw [hexDecodeLoop_snoc]
    simp only [hexDecodeTurn, hin (src + 2 * p) (by omega) (by omega),
      hin (src + 2 * p + 1) (by omega) (by omega), hv p (by omega), hc]
    refine ⟨trivial, fun j hj => ?_⟩
    rw [readByte_writeByte]
    split_ifs with hjp
    · rw [show j = p by omega]
    · exact hr j (by omega)

end Sys2Proof.Machine
end

