-- ==== Sys2Proof/Laws/PerInstr.lean ====
section
/-! SUPPORT. The family RoundTrip: what is said of every command as syntax (30_encoding.md R70, R73), one lemma
per command. -/

namespace Sys2Proof.Laws.RoundTrip

/-- The command's word has RSV = 0 and the command's number in OP, and the decoder reads the command from it. -/
def Statement (i : Instr) : Prop :=
  i.wellFormed = true ∧ rsvField (encode i) = 0 ∧ opField (encode i) = opNumber i ∧ decode (encode i) = .ok i

theorem keyinit : Statement .keyinit := by unfold Statement; decide
theorem cleanup : Statement .cleanup := by unfold Statement; decide
theorem encb : Statement .encb := by unfold Statement; decide
theorem decb : Statement .decb := by unfold Statement; decide
theorem ecbenc : Statement .ecbenc := by unfold Statement; decide
theorem ecbdec : Statement .ecbdec := by unfold Statement; decide
theorem setiv : Statement .setiv := by unfold Statement; decide
theorem getiv : Statement .getiv := by unfold Statement; decide
theorem cbcenc : Statement .cbcenc := by unfold Statement; decide
theorem cbcdec : Statement .cbcdec := by unfold Statement; decide
theorem ld32 : Statement .ld32 := by unfold Statement; decide
theorem st32 : Statement .st32 := by unfold Statement; decide
theorem ld64 : Statement .ld64 := by unfold Statement; decide
theorem st64 : Statement .st64 := by unfold Statement; decide
theorem hexenc : Statement .hexenc := by unfold Statement; decide
theorem hexdec : Statement .hexdec := by unfold Statement; decide

end Sys2Proof.Laws.RoundTrip
end

