-- ==== Sys2Proof/Laws/Schedule.lean ====
section
/-! SUPPORT. The key schedule in closed form: the chunk of four key bytes (40_key_schedule.md R102), the mixing
loop after n turns, and step 3 as one chain of 521 turns, entry by entry (R103). -/

namespace Sys2Proof.Machine

theorem shiftIn_toNat (x : Word) (b : Byte) (h : x.toNat < 2 ^ 24) :
    ((x <<< 8) ||| b.setWidth 32).toNat = x.toNat * 2 ^ 8 + b.toNat := by
  rw [BitVec.toNat_or, BitVec.toNat_shiftLeft, BitVec.toNat_setWidth, Nat.shiftLeft_eq, Nat.mod_eq_of_lt (by omega),
    Nat.mod_eq_of_lt (by have := b.isLt; omega), or_below 8 _ b.isLt]

/-- A chunk is the big-endian word of four key bytes counted cyclically from `j`. -/
theorem keyChunk_eq (key : List Byte) (j : Nat) :
    keyChunk key j =
      (be32 (key.getD j 0) (key.getD ((j + 1) % key.length) 0) (key.getD ((j + 2) % key.length) 0)
        (key.getD ((j + 3) % key.length) 0), (j + 4) % key.length) := by
  simp only [keyChunk, takeKeyByte, Nat.mod_add_mod]
  congr 1
  generalize key.getD j 0 = a
  generalize key.getD ((j + 1) % key.length) 0 = b
  generalize key.getD ((j + 1 + 1) % key.length) 0 = c
  generalize key.getD ((j + 1 + 1 + 1) % key.length) 0 = d
  apply BitVec.eq_of_toNat_eq
  have ha := a.isLt
  have hb := b.isLt
  have hc := c.isLt
  have h0 := shiftIn_toNat 0 a (by decide)
  have h1 := shiftIn_toNat _ b (by rw [h0]; simp; omega)
  have h2 := shiftIn_toNat _ c (by rw [h1, h0]; simp; omega)
  have h3 := shiftIn_toNat _ d (by rw [h2, h1, h0]; simp; omega)
  rw [be32_toNat, h3, h2, h1, h0]
  simp; omega

/-- The word the mixing loop takes into P[i]. -/
def keyWord (key : List Byte) (i : Nat) : Word :=
  be32 (key.getD ((4 * i) % key.length) 0) (key.getD ((4 * i + 1) % key.length) 0)
    (key.getD ((4 * i + 2) % key.length) 0) (key.getD ((4 * i + 3) % key.length) 0)

/-- The mixing loop after `n` turns: the key index, S, and the entries of P. -/
theorem mixEntry_foldl (key : List Byte) (n : Nat) (hn : n ≤ 18) (c : Cipher) :
    (((List.finRange 18).take n).foldl (mixEntry key) (c, 0)).2 = (4 * n) % key.length
      ∧ (((List.finRange 18).take n).foldl (mixEntry key) (c, 0)).1.s = c.s
      ∧ ∀ i : Fin 18, pEntry (((List.finRange 18).take n).foldl (mixEntry key) (c, 0)).1 i =
          if i.val < n then pEntry c i ^^^ keyWord key i.val else pEntry c i := by
  induction n with
  | zero => simp
  | succ n ih =>
    obtain ⟨h1, h2, h3⟩ := ih (by omega)
    have ht : (List.finRange 18).take (n + 1) = (List.finRange 18).take n ++ [⟨n, by omega⟩] := by
      rw [List.take_add_one, List.getElem?_eq_getElem (by simp; omega), List.getElem_finRange]
      rfl
    rw [ht, List.foldl_append]
    simp only [List.foldl_cons, List.foldl_nil]
    generalize hg : ((List.finRange 18).take n).foldl (mixEntry key) (c, 0) = g at h1 h2 h3
    simp only [mixEntry, keyChunk_eq]
    refine ⟨?_, h2, ?_⟩
    · rw [h1, Nat.mod_add_mod]; congr 1
    · intro i
      rw [pEntry_setP, h3, h3, h1]
      simp only [Nat.mod_add_mod]
      by_cases hin : i = ⟨n, by omega⟩
      · rw [if_pos hin]; subst hin; simp [keyWord]
      · have : i.val ≠ n := fun h => hin (Fin.ext h)
        rw [if_neg hin]
        split_ifs <;> first | rfl | omega

/-! ## Entries by number, and step 3 as one chain of 521 turns -/

theorem tableEntry_p (c : Cipher) (i : Fin 18) : tableEntry c i.val = pEntry c i := by
  rw [tableEntry, dif_pos i.isLt]

theorem tableEntry_s (c : Cipher) (k : Fin 4) (j : Byte) :
    tableEntry c (18 + 256 * k.val + j.toNat) = sEntry c k j := by
  have hj := j.isLt
  have hk : Fin.ofNat 4 ((18 + 256 * k.val + j.toNat - 18) / 256) = k :=
    Fin.ext (by simp only [Fin.val_ofNat]; omega)
  have hb : BitVec.ofNat 8 (18 + 256 * k.val + j.toNat - 18) = j :=
    BitVec.eq_of_toNat_eq (by rw [BitVec.toNat_ofNat]; omega)
  rw [tableEntry, dif_neg (by omega), hk, hb]

/-- Two sets of tables are equal when their entries are, number by number. -/
theorem Cipher.eq_of_tableEntry {c d : Cipher} (h : ∀ e < 1042, tableEntry c e = tableEntry d e) : c = d := by
  refine Cipher.eq_of_entries (fun i => ?_) ?_
  · rw [← tableEntry_p, ← tableEntry_p]
    exact h _ (by omega)
  · apply Vector.ext
    intro k hk
    apply Vector.ext
    intro j hj
    have hs := h (18 + 256 * k + j) (by omega)
    have hb : (BitVec.ofNat 8 j).toNat = j := by rw [BitVec.toNat_ofNat]; omega
    have hc := tableEntry_s c ⟨k, hk⟩ (BitVec.ofNat 8 j)
    have hd := tableEntry_s d ⟨k, hk⟩ (BitVec.ofNat 8 j)
    simp only [hb] at hc hd
    rw [hc, hd] at hs
    simpa only [sEntry, Vector.get_eq_getElem, BitVec.val_toFin, hb] using hs

theorem tableEntry_partlyFilled (start done : Cipher) (filled : Nat) {e : Nat} (he : e < 1042) :
    tableEntry (partlyFilled start done filled) e
      = if e < filled then tableEntry done e else tableEntry start e := by
  by_cases h : e < 18
  · simp only [tableEntry, dif_pos h, pEntry, partlyFilled, Vector.get_eq_getElem, Vector.getElem_ofFn]
  · have hn : 18 + 256 * ((e - 18) / 256 % 4) + (e - 18) % 2 ^ 8 = e := by omega
    simp only [tableEntry, dif_neg h, sEntry, partlyFilled, Vector.get_eq_getElem, Vector.getElem_ofFn,
      BitVec.val_toFin, BitVec.toNat_ofNat, Fin.val_ofNat, hn]

theorem tableEntry_setP (c : Cipher) (i : Fin 18) (w : Word) (e : Nat) :
    tableEntry (setP c i w) e = if e = i.val then w else tableEntry c e := by
  by_cases h : e < 18
  · simp only [tableEntry, dif_pos h, pEntry_setP, Fin.ext_iff]
  · rw [if_neg (by omega)]
    simp only [tableEntry, dif_neg h, sEntry_setP]

theorem tableEntry_setS (c : Cipher) (k : Fin 4) (j : Fin 256) (w : Word) {e : Nat} (he : e < 1042) :
    tableEntry (setS c k j w) e = if e = 18 + 256 * k.val + j.val then w else tableEntry c e := by
  by_cases h : e < 18
  · rw [if_neg (by omega)]
    simp only [tableEntry, dif_pos h, pEntry_setS]
  · have hiff : (Fin.ofNat 4 ((e - 18) / 256) = k ∧ (BitVec.ofNat 8 (e - 18)).toFin = j)
        ↔ e = 18 + 256 * k.val + j.val := by
      simp only [Fin.ext_iff, Fin.val_ofNat, BitVec.val_toFin, BitVec.toNat_ofNat]
      omega
    simp only [tableEntry, dif_neg h, sEntry_setS, hiff]

/-- Turn `n` of step 3: the turns over P, then those over S[0] to S[3]. -/
def fillTurn (cb : Cipher × (Word × Word)) (n : Nat) : Cipher × (Word × Word) :=
  if h : n < 9 then fillP cb ⟨n, h⟩ else fillS (Fin.ofNat 4 ((n - 9) / 128)) cb (Fin.ofNat 128 (n - 9))

/-- The first `n` turns of step 3 from the tables `c`, the running block with them. -/
def fillTurns (c : Cipher) (n : Nat) : Cipher × (Word × Word) := (List.range n).foldl fillTurn (c, (0, 0))

theorem fillTurns_succ (c : Cipher) (n : Nat) : fillTurns c (n + 1) = fillTurn (fillTurns c n) n := by
  rw [fillTurns, List.range_succ, List.foldl_append]; rfl

/-- What a turn does: the running block is encrypted with the tables as they stand, and its halves become
entries 2n and 2n + 1. -/
theorem fillTurn_block (cb : Cipher × (Word × Word)) (n : Nat) : (fillTurn cb n).2 = encryptBlock cb.1 cb.2 := by
  simp only [fillTurn]
  split_ifs <;> rfl

theorem fillTurn_entry (cb : Cipher × (Word × Word)) {n e : Nat} (hn : n < 521) (he : e < 1042) :
    tableEntry (fillTurn cb n).1 e =
      if e = 2 * n + 1 then (encryptBlock cb.1 cb.2).2
      else if e = 2 * n then (encryptBlock cb.1 cb.2).1 else tableEntry cb.1 e := by
  simp only [fillTurn]
  split_ifs with h <;>
    simp only [fillP, fillS, tableEntry_setP, tableEntry_setS _ _ _ _ he, Fin.val_ofNat] <;>
    split_ifs <;> first | rfl | omega

theorem foldl_finRange {α : Type} (n base : Nat) (f : α → Nat → α) (g : α → Fin n → α)
    (h : ∀ a (i : Fin n), g a i = f a (base + i.val)) (a : α) :
    (List.finRange n).foldl g a = ((List.range n).map (base + ·)).foldl f a := by
  rw [← List.map_coe_finRange_eq_range, List.map_map, List.foldl_map]
  congr 1
  funext b i
  exact h b i

/-- Step 3 is the chain of its 521 turns. -/
theorem selfEncrypt_eq_fillTurns (c : Cipher) : selfEncrypt c = (fillTurns c 521).1 := by
  have hP : ∀ cb, (List.finRange 9).foldl fillP cb = ((List.range 9).map (0 + ·)).foldl fillTurn cb :=
    foldl_finRange 9 0 fillTurn fillP fun cb i => by
      simp only [fillTurn, Nat.zero_add, dif_pos i.isLt]
  have hS : ∀ (k : Fin 4) cb, (List.finRange 128).foldl (fillS k) cb
      = ((List.range 128).map (9 + 128 * k.val + ·)).foldl fillTurn cb := fun k =>
    foldl_finRange 128 (9 + 128 * k.val) fillTurn (fillS k) fun cb j => by
      have hk : Fin.ofNat 4 ((9 + 128 * k.val + j.val - 9) / 128) = k :=
        Fin.ext (by simp only [Fin.val_ofNat]; omega)
      have hj : Fin.ofNat 128 (9 + 128 * k.val + j.val - 9) = j :=
        Fin.ext (by simp only [Fin.val_ofNat]; omega)
      rw [fillTurn, dif_neg (by omega), hk, hj]
  have hr : List.range 521 = (List.range 9).map (0 + ·) ++ (List.range 128).map (9 + 128 * (0 : Fin 4).val + ·)
      ++ (List.range 128).map (9 + 128 * (1 : Fin 4).val + ·) ++ (List.range 128).map (9 + 128 * (2 : Fin 4).val + ·)
      ++ (List.range 128).map (9 + 128 * (3 : Fin 4).val + ·) := by decide +kernel
  simp only [selfEncrypt, fillTurns, hP, hS, hr, List.foldl_append,
    show List.finRange 4 = [0, 1, 2, 3] from by decide, List.foldl_cons, List.foldl_nil]

/-- Once written, an entry stays to the end; until then it is the one step 3 started from. -/
theorem fillTurns_entry (c : Cipher) {n e : Nat} (hn : n ≤ 521) (he : e < 1042) :
    tableEntry (fillTurns c n).1 e =
      if e < 2 * n then tableEntry (selfEncrypt c) e else tableEntry c e := by
  have kept : ∀ d, n + d ≤ 521 → e < 2 * n → tableEntry (fillTurns c (n + d)).1 e = tableEntry (fillTurns c n).1 e := by
    intro d
    induction d with
    | zero => intros; rfl
    | succ d ih =>
      intro hd hlt
      rw [← Nat.add_assoc, fillTurns_succ, fillTurn_entry _ (by omega) he, if_neg (by omega), if_neg (by omega),
        ih (by omega) hlt]
  have before : ∀ m, 2 * m ≤ e → tableEntry (fillTurns c m).1 e = tableEntry c e := by
    intro m
    induction m with
    | zero => intro; rfl
    | succ m ih =>
      intro hm
      rw [fillTurns_succ, fillTurn_entry _ (by omega) he, if_neg (by omega), if_neg (by omega), ih (by omega)]
  split_ifs with h
  · rw [selfEncrypt_eq_fillTurns, ← kept (521 - n) (by omega) h, Nat.add_sub_cancel' hn]
  · exact before n (by omega)

/-- The tables after `n` turns. -/
theorem fillTurns_tables (c : Cipher) {n : Nat} (hn : n ≤ 521) :
    (fillTurns c n).1 = partlyFilled c (selfEncrypt c) (2 * n) :=
  Cipher.eq_of_tableEntry fun e he => by rw [fillTurns_entry c hn he, tableEntry_partlyFilled _ _ _ he]

/-- The pair turn `n` wrote is the running block after it. -/
theorem fillTurns_pair (c : Cipher) {n : Nat} (hn : n < 521) :
    (tableEntry (selfEncrypt c) (2 * n), tableEntry (selfEncrypt c) (2 * n + 1)) = (fillTurns c (n + 1)).2 := by
  have h0 := fillTurns_entry c (n := n + 1) (e := 2 * n) (by omega) (by omega)
  have h1 := fillTurns_entry c (n := n + 1) (e := 2 * n + 1) (by omega) (by omega)
  rw [if_pos (by omega), fillTurns_succ, fillTurn_entry _ hn (by omega)] at h0 h1
  rw [if_neg (by omega), if_pos rfl] at h0
  rw [if_pos rfl] at h1
  rw [← h0, ← h1, fillTurns_succ, fillTurn_block]

end Sys2Proof.Machine
end

