-- ==== Sys2Proof/Laws/Step.lean ====
section
/-! SUPPORT. Everything a step can do, said once: the engine's turn, an operation of the host, a reset, or
nothing; and what each of them leaves alone. -/

namespace Sys2Proof.Machine

/-! ## The step -/

/-- The state as the host's turn finds it: a step of a pending command's latency has passed. -/
def waited (s : State) : State := if s.busy then passTime (s.latency - 1) s else s

/-- The engine acts now. -/
theorem engineMoves_iff (s : State) : engineMoves s = true ↔ s.busy = true ∧ s.latency = 0 := by
  simp only [engineMoves, Bool.and_eq_true, beq_iff_eq]

theorem step_engine {s : State} (hb : s.busy = true) (hl : s.latency = 0) : step s = engineTurn s := by
  simp only [step, oneStep, hb, hl, if_true]

theorem step_host {s : State} (h : ¬ (s.busy = true ∧ s.latency = 0)) : step s = hostTurn (waited s) := by
  simp only [step, oneStep, waited]
  cases hb : s.busy
  · rfl
  · rw [if_pos rfl, if_pos rfl]
    cases hl : s.latency with
    | zero => exact absurd ⟨hb, hl⟩ h
    | succ n => rfl

theorem step_free {s : State} (h : s.busy = false) : step s = hostTurn s := by
  simp only [step, oneStep, h, Bool.false_eq_true, if_false]

theorem waited_frame (s : State) : waited s = { s with latency := (waited s).latency } := by
  simp only [waited]; split_ifs <;> rfl

@[simp] theorem waited_plat (s : State) : (waited s).plat = s.plat := by rw [waited_frame]
@[simp] theorem waited_cipher (s : State) : (waited s).cipher = s.cipher := by rw [waited_frame]
@[simp] theorem waited_iv (s : State) : (waited s).iv = s.iv := by rw [waited_frame]
@[simp] theorem waited_keyv (s : State) : (waited s).keyv = s.keyv := by rw [waited_frame]
@[simp] theorem waited_latch (s : State) : (waited s).latch = s.latch := by rw [waited_frame]
@[simp] theorem waited_busy (s : State) : (waited s).busy = s.busy := by rw [waited_frame]
@[simp] theorem waited_cmd (s : State) : (waited s).cmd = s.cmd := by rw [waited_frame]
@[simp] theorem waited_regs (s : State) : (waited s).regs = s.regs := by rw [waited_frame]
@[simp] theorem waited_buf (s : State) : (waited s).buf = s.buf := by rw [waited_frame]
@[simp] theorem waited_epoch (s : State) : (waited s).epoch = s.epoch := by rw [waited_frame]
@[simp] theorem waited_schedule (s : State) : (waited s).schedule = s.schedule := by rw [waited_frame]
@[simp] theorem waited_host (s : State) : (waited s).host = s.host := by rw [waited_frame]
@[simp] theorem nextOp_waited (s : State) : nextOp (waited s) = nextOp s := by simp only [nextOp, waited_host]
@[simp] theorem onlyStatus_waited (s : State) : onlyStatus (waited s) = onlyStatus s := by
  simp only [onlyStatus, waited_host, waited_busy]
@[simp] theorem statusWord_waited (s : State) : statusWord (waited s) = statusWord s := by
  simp only [statusWord, waited_busy, waited_latch, waited_keyv]

theorem waited_free {s : State} (h : s.busy = false) : waited s = s := by
  simp only [waited, h, Bool.false_eq_true, if_false]

/-- Every command answers a next state. -/
theorem exec_answers (i : Instr) (s : State) : ∃ t, exec i s = .next t := by
  rcases exec_cases i s with ⟨_, _, e⟩ | ⟨_, _, _, _, e⟩ | ⟨_, _, e⟩ <;> exact ⟨_, e⟩

theorem engineTurn_command {s t : State} {i : Instr} (hd : decode s.cmd = .ok i) (he : exec i s = .next t) :
    engineTurn s = .next (clearBusy t) := by
  simp only [engineTurn, fetchWord, hd, he, endCommand]

theorem engineTurn_illegal {s : State} {r : DecodeReject} (hd : decode s.cmd = .error r) :
    engineTurn s = .next (clearBusy (runIllegal s.cmd s)) := by
  simp only [engineTurn, fetchWord, hd]

/-- Everything the engine's turn can do. -/
theorem engineTurn_cases (s : State) :
    (∃ i u, decode s.cmd = .ok i ∧ exec i s = .next u ∧ engineTurn s = .next (clearBusy u))
      ∨ ((∃ r, decode s.cmd = .error r) ∧ engineTurn s = .next (clearBusy (runIllegal s.cmd s))) := by
  cases hd : decode s.cmd with
  | ok i =>
    obtain ⟨u, hu⟩ := exec_answers i s
    exact .inl ⟨i, u, rfl, hu, engineTurn_command hd hu⟩
  | error r => exact .inr ⟨⟨r, rfl⟩, engineTurn_illegal hd⟩

theorem runIllegal_cases (w : Word) (s : State) :
    (s.latch.fault = true ∧ runIllegal w s = s)
      ∨ (s.latch.fault = false ∧ runIllegal w s = raiseFault .illegalCommand w s) := by
  cases h : s.latch.fault
  · exact .inr ⟨rfl, by simp only [runIllegal, h, Bool.false_eq_true, if_false]⟩
  · exact .inl ⟨rfl, by simp only [runIllegal, h, if_true]⟩

/-! ## The host's operations -/

theorem busTarget_register {p : Platform} {a : Nat} {r : Reg} (h : busTarget p a = .register r) :
    a = p.base + regOffset r := by
  unfold busTarget at h
  split_ifs at h with h1 h2 h3
  · cases hr : regAt (a - p.base) with
    | none => simp only [hr, reduceCtorEq] at h
    | some r' =>
      simp only [hr, BusTarget.register.injEq] at h
      subst h
      have : a - p.base = regOffset r' := by
        revert hr
        unfold regAt
        split <;> intro hr <;> first | (simp only [Option.some.injEq] at hr; subst hr; assumption) | simp at hr
      omega

theorem busTarget_regOffset (p : Platform) (r : Reg) : busTarget p (p.base + regOffset r) = .register r := by
  unfold busTarget
  simp only [Nat.add_sub_cancel_left, Config.windowBytes]
  rw [if_pos ⟨by omega, by cases r <;> simp [regOffset]⟩]
  cases r <;> rfl

theorem busTarget_buffer {p : Platform} {a off : Nat} (h : busTarget p a = .buffer off) : off < p.bufBytes := by
  unfold busTarget at h
  split_ifs at h with h1 h2 h3
  · cases hr : regAt (a - p.base) <;> simp only [hr, reduceCtorEq] at h
  · simp only [BusTarget.buffer.injEq] at h
    omega

/-- The constraints of 00_scope.md R7. -/
theorem platform_wellFormed_iff (p : Platform) :
    p.wellFormed = true ↔ 64 ≤ p.bufBytes ∧ p.bufBytes ≤ 2 ^ 31 ∧ p.base % 64 = 0
      ∧ (p.base + 64 ≤ p.bufBase ∨ p.bufBase + p.bufBytes ≤ p.base) := by
  simp only [Platform.wellFormed, Bool.and_eq_true, Bool.or_eq_true, decide_eq_true_eq, and_assoc]
  exact Iff.rfl

/-- On a platform R7 allows, BUF_BASE + off reaches byte `off` of BUF. -/
theorem busTarget_bufBase {p : Platform} {off : Nat} (hp : p.wellFormed = true) (h : off < p.bufBytes) :
    busTarget p (p.bufBase + off) = .buffer off := by
  have hw := (platform_wellFormed_iff p).1 hp
  have h64 : Config.windowBytes = 64 := rfl
  unfold busTarget
  rw [if_neg (by omega), if_pos (by omega), Nat.add_sub_cancel_left]

/-- Everything one operation can do when it is not refused. -/
inductive OpDone (s : State) : HostOp → State → Prop where
  /-- A register write; the host is free. -/
  | wrote (r : Reg) (v : Word) : onlyStatus s = false →
      OpDone s (.w32 (s.plat.base + regOffset r) v) (advance (writeReg r v s))
  /-- A register read. -/
  | hasRead (r : Reg) : (onlyStatus s = true → r = .status) →
      OpDone s (.r32 (s.plat.base + regOffset r)) (advance (hostReadReg r s))
  /-- A byte write; the host is free. -/
  | wroteByte (a off : Nat) (b : Byte) : onlyStatus s = false → busTarget s.plat a = .buffer off →
      OpDone s (.w8 a b) (advance (writeByte off b s))
  /-- A byte read; the host is free. -/
  | hasReadByte (a off : Nat) : onlyStatus s = false → busTarget s.plat a = .buffer off →
      OpDone s (.r8 a) (advance (record ((readByte s off).setWidth 32) s))
  /-- A turn of `wait`. -/
  | polled : OpDone s .poll (pollStatus s)
  /-- The reset event. -/
  | wasReset : OpDone s .resetSignal (advance (takeReset s))

theorem performOp_cases {op : HostOp} {s t : State} (h : performOp op s = .next t) : OpDone s op t := by
  unfold performOp at h
  split_ifs at h with hw
  simp only [Bool.and_eq_true, Bool.not_eq_true', not_and, Bool.not_eq_false] at hw
  cases op with
  | w32 a v =>
    have hf : onlyStatus s = false := by
      cases ho : onlyStatus s
      · rfl
      · exact absurd (hw ho) (by simp [allowedWhileBusy])
    simp only [busWrite32] at h
    cases hb : busTarget s.plat a <;> simp only [hb, reduceCtorEq, Host.Outcome.next.injEq] at h
    subst h
    rw [busTarget_register hb]
    exact .wrote _ v hf
  | r32 a =>
    simp only [busRead32] at h
    cases hb : busTarget s.plat a <;> simp only [hb, reduceCtorEq, Host.Outcome.next.injEq] at h
    subst h
    have hs := hw
    rw [busTarget_register hb]
    refine .hasRead _ fun ho => ?_
    have := hs ho
    simpa [allowedWhileBusy, hb] using this
  | w8 a b =>
    have hf : onlyStatus s = false := by
      cases ho : onlyStatus s
      · rfl
      · exact absurd (hw ho) (by simp [allowedWhileBusy])
    simp only [busWrite8] at h
    cases hb : busTarget s.plat a <;> simp only [hb, reduceCtorEq, Host.Outcome.next.injEq] at h
    subst h
    exact .wroteByte a _ b hf hb
  | r8 a =>
    have hf : onlyStatus s = false := by
      cases ho : onlyStatus s
      · rfl
      · exact absurd (hw ho) (by simp [allowedWhileBusy])
    simp only [busRead8] at h
    cases hb : busTarget s.plat a <;> simp only [hb, reduceCtorEq, Host.Outcome.next.injEq] at h
    subst h
    exact .hasReadByte a _ hf hb
  | poll => simp only [Host.Outcome.next.injEq] at h; subst h; exact .polled
  | resetSignal => simp only [Host.Outcome.next.injEq] at h; subst h; exact .wasReset

/-- Everything a step can do. -/
theorem step_cases {s t : State} (h : step s = .next t) :
    (engineMoves s = true ∧ engineTurn s = .next t)
      ∨ (engineMoves s = false ∧ nextOp s = none ∧ t = waited s)
      ∨ (∃ op, engineMoves s = false ∧ nextOp s = some op ∧ OpDone (waited s) op t) := by
  cases hm : engineMoves s
  · have hn : ¬ (s.busy = true ∧ s.latency = 0) := fun c => by
      rw [(engineMoves_iff s).2 c] at hm; exact Bool.noConfusion hm
    rw [step_host hn, hostTurn, nextOp_waited] at h
    cases ho : nextOp s with
    | none => simp only [ho, Host.Outcome.next.injEq] at h; exact .inr (.inl ⟨rfl, rfl, h.symm⟩)
    | some op => simp only [ho] at h; exact .inr (.inr ⟨op, rfl, rfl, performOp_cases h⟩)
  · obtain ⟨hb, hl⟩ := (engineMoves_iff s).1 hm
    rw [step_engine hb hl] at h
    exact .inl ⟨rfl, h⟩

theorem performOp_free {s : State} (h : onlyStatus s = false) (op : HostOp) :
    performOp op s = match op with
      | .w32 a v => busWrite32 a v s
      | .r32 a => busRead32 a s
      | .w8 a b => busWrite8 a b s
      | .r8 a => busRead8 a s
      | .poll => .next (pollStatus s)
      | .resetSignal => .next (advance (takeReset s)) := by
  cases op <;> simp only [performOp, h, Bool.false_and, Bool.false_eq_true, if_false]

theorem step_op {s : State} {op : HostOp} (hb : s.busy = false) (ho : nextOp s = some op) :
    step s = performOp op s := by rw [step_free hb, hostTurn, ho]

/-! ## What operations leave alone -/

theorem hostReadReg_frame (r : Reg) (s : State) :
    hostReadReg r s = { s with host := (hostReadReg r s).host } := by cases r <;> rfl

theorem pollStatus_frame (s : State) : pollStatus s = { s with host := (pollStatus s).host } := by
  simp only [pollStatus]; split_ifs <;> rfl

theorem writeReg_frame (r : Reg) (v : Word) (s : State) :
    writeReg r v s = { s with
      regs := (writeReg r v s).regs, cmd := (writeReg r v s).cmd, busy := (writeReg r v s).busy
      latency := (writeReg r v s).latency, schedule := (writeReg r v s).schedule
      host := (writeReg r v s).host } := by cases r <;> rfl

/-! ## Effects on the parts of the state -/

theorem bulkEffect_frame (mode : DWord → DWord → DWord × DWord) (s : State) :
    bulkEffect mode s = { s with
      iv := (bulkEffect mode s).iv, buf := (bulkEffect mode s).buf
      regs := { s.regs with count := (bulkEffect mode s).regs.count } } := by
  simp only [bulkEffect]
  rw [blockLoop_frame]
  rfl

theorem hexEncodeEffect_frame (s : State) :
    hexEncodeEffect s = { s with
      buf := (hexEncodeEffect s).buf
      regs := { s.regs with count := (hexEncodeEffect s).regs.count } } := by
  simp only [hexEncodeEffect]
  rw [hexEncodeLoop_frame]
  rfl

theorem hexDecodeEffect_frame (s : State) :
    hexDecodeEffect s = { s with
      buf := (hexDecodeEffect s).buf
      regs := { s.regs with count := (hexDecodeEffect s).regs.count } } := by
  simp only [hexDecodeEffect]
  rw [hexDecodeLoop_frame]
  rfl

theorem loadSchedule_frame (c : Cipher) (s : State) :
    loadSchedule c s = { s with
      cipher := (loadSchedule c s).cipher, iv := (loadSchedule c s).iv, keyv := (loadSchedule c s).keyv
      regs := (loadSchedule c s).regs, buf := (loadSchedule c s).buf } := rfl

theorem setResult_frame (h l : Word) (s : State) :
    setResult h l s = { s with
      cipher := (setResult h l s).cipher, iv := (setResult h l s).iv, keyv := (setResult h l s).keyv
      regs := (setResult h l s).regs, buf := (setResult h l s).buf } := rfl

theorem regs_frame {s t : State} {v : DWord} {m : Memory} {r : Regs}
    (h : t = { s with iv := v, buf := m, regs := r }) :
    t = { s with cipher := t.cipher, iv := t.iv, keyv := t.keyv, regs := t.regs, buf := t.buf } := by
  subst h; rfl

/-- No command changes the platform, the latch (a fault apart), BUSY, CMD, or anything of the host's. -/
theorem effectOf_frame (s : State) (i : Instr) :
    effectOf s i = { s with
      cipher := (effectOf s i).cipher, iv := (effectOf s i).iv, keyv := (effectOf s i).keyv
      regs := (effectOf s i).regs, buf := (effectOf s i).buf } := by
  cases i
  case ecbenc => exact regs_frame (bulkEffect_frame _ s)
  case ecbdec => exact regs_frame (bulkEffect_frame _ s)
  case cbcenc => exact regs_frame (bulkEffect_frame _ s)
  case cbcdec => exact regs_frame (bulkEffect_frame _ s)
  case hexenc => exact regs_frame (hexEncodeEffect_frame s)
  case hexdec => exact regs_frame (hexDecodeEffect_frame s)
  case keyinit => exact loadSchedule_frame _ s
  case encb => exact setResult_frame _ _ s
  case decb => exact setResult_frame _ _ s
  case getiv => exact setResult_frame _ _ s
  case ld32 => exact setResult_frame _ _ s
  case ld64 => exact setResult_frame _ _ s
  all_goals rfl

/-- A command changes nothing but P, S, IV, KEYV, the latch, the registers and BUF. -/
theorem exec_frame {i : Instr} {s t : State} (h : exec i s = .next t) :
    t = { s with
      cipher := t.cipher, iv := t.iv, keyv := t.keyv, latch := t.latch, regs := t.regs, buf := t.buf } := by
  rcases exec_cases i s with ⟨_, _, e⟩ | ⟨c, _, _, _, e⟩ | ⟨_, _, e⟩
  · rw [e] at h; cases h; rfl
  · rw [e] at h; cases h; rfl
  · rw [e] at h; cases h
    have f := effectOf_frame s i
    generalize effectOf s i = u at f
    rw [f]

/-- What the tables say depends on KEYV, P and S only. -/
theorem tablesMatchKeyv_congr {s t : State} (hk : t.keyv = s.keyv) (hc : t.cipher = s.cipher)
    (h : tablesMatchKeyv s) : tablesMatchKeyv t := by
  simp only [tablesMatchKeyv, hk, hc]; exact h

/-- KEYINIT leaves a schedule of a legal key. -/
theorem tablesMatchKeyv_keyinit {s : State} (h : keyLengthOk s = true) : tablesMatchKeyv (keyinitEffect s) := by
  have hl := (keyLengthOk_iff s).1 h
  simp only [tablesMatchKeyv, keyinitEffect, loadSchedule_keyv, loadSchedule_cipher, if_true]
  refine ⟨keyBytes s, ?_, ?_, rfl⟩
  · rw [keyBytes, readBytes_length]; exact hl.1
  · rw [keyBytes, readBytes_length]; exact hl.2

/-- The bit `wait` looks at is BUSY. -/
theorem showsBusy_statusWord (s : State) : showsBusy (statusWord s) = s.busy := by
  have bit : ∀ (b f k : Bool) (e : BitVec 4),
      BitVec.getLsbD (0#23 ++ BitVec.ofBool b ++ e ++ 0#2 ++ BitVec.ofBool f ++ BitVec.ofBool k
        : BitVec (23 + 1 + 4 + 2 + 1 + 1)) 8 = b := by decide
  exact bit _ _ _ _

/-- `run` takes its first step and goes on. -/
theorem run_succ {s u : State} (h : step s = .next u) (n : Nat) :
    Host.Core.run core (n + 1) s = Host.Core.run core n u := by
  have h' : core.step s = .next u := h
  simp only [Host.Core.run, h']

section
variable {i : Instr} {s t : State} (h : exec i s = .next t)
include h
theorem exec_plat : t.plat = s.plat := by rw [exec_frame h]
theorem exec_busy : t.busy = s.busy := by rw [exec_frame h]
theorem exec_cmd : t.cmd = s.cmd := by rw [exec_frame h]
theorem exec_epoch : t.epoch = s.epoch := by rw [exec_frame h]
theorem exec_latency : t.latency = s.latency := by rw [exec_frame h]
theorem exec_schedule : t.schedule = s.schedule := by rw [exec_frame h]
theorem exec_host : t.host = s.host := by rw [exec_frame h]
end

/-- The latch after a command: as before, or with a code the command may raise and the command's word. -/
theorem exec_latch {i : Instr} {s t : State} (h : exec i s = .next t) :
    t.latch = s.latch
      ∨ ∃ e, s.latch.fault = false ∧ firstFailure (checksOf s i) = some e
          ∧ t = raiseFault e (encode i) s := by
  rcases exec_cases i s with ⟨_, _, e⟩ | ⟨c, _, hf, hc, e⟩ | ⟨_, _, e⟩
  · rw [e] at h; cases h; exact .inl rfl
  · rw [e] at h; cases h; exact .inr ⟨c, hf, hc, rfl⟩
  · rw [e] at h; cases h
    have f := effectOf_frame s i
    generalize effectOf s i = u at f
    exact .inl (by rw [f])

end Sys2Proof.Machine
end

