-- ==== Sys2Proof/Tests/Slice0.lean ====
section
/-! SUPPORT. Tests of the model and the witnesses of its statements. Expected values come from the spec, named
at each test: the tables of 30_encoding.md and the vectors of 95_test_vectors.md. -/

namespace Sys2Proof.Tests

-- The tests evaluate the cipher in the kernel: one after another they stay within the memory a run has.
set_option Elab.async false

open Sys2Proof Sys2Proof.Machine Sys2Proof.Claims

/-! ## States to test on -/

/-- The reset state with SRC, DST and LEN set. -/
def ranges (src dst len : Word) : State :=
  { State.reset with regs := { Regs.zero with src := src, dst := dst, len := len } }

/-- The reset state with DHI and DLO set. -/
def block (hi lo : Word) : State := { State.reset with regs := { Regs.zero with dhi := hi, dlo := lo } }

/-- KEYV = 1 with the tables of π. -/
def keyed (s : State) : State := { s with cipher := Cipher.initial, keyv := true }

/-- A latched fault, NO_KEY from ENCB. -/
def faulty (s : State) : State := { s with latch := { fault := true, ecode := 4, fcmd := 0x10 } }

/-- Bytes written from an offset of BUF on. -/
def bytesAt : Nat → List Byte → State → State
  | _, [], s => s
  | a, b :: rest, s => bytesAt (a + 1) rest (writeByte a b s)

/-- The host's next operations. -/
def hostDoes (ops : List HostOp) (s : State) : State := giveProgram ops s

/-- A command word is pending with `left` steps of latency. -/
def pending (w : Word) (left : Nat) (s : State) : State := postCommand w left s

/-- What a next state satisfies; false of a fault or a refusal. -/
def after (o : Host.Outcome State Fault Refusal) (p : State → Bool) : Bool :=
  match o with
  | .next t => p t
  | .fault _ => false
  | .refused _ => false

/-- The state after, or reset where there is none. -/
def result (o : Host.Outcome State Fault Refusal) : State :=
  match o with
  | .next t => t
  | .fault _ => State.reset
  | .refused _ => State.reset

/-- The `n` bytes from an offset on. -/
def bufIs (a : Nat) (bytes : List Byte) (s : State) : Bool := readBytes s bytes.length a == bytes

/-! ## WellFormed: a term for each check, which the check refuses (00_scope.md R7, 10_state.md R35, R36) -/

theorem test_platform_examples_wellFormed : State.reset.plat.wellFormed = true := by decide
theorem test_platform_buf_too_small : ({ bufBytes := 63, base := 0, bufBase := 0x1000 } : Platform).wellFormed = false := by
  decide
theorem test_platform_buf_too_large :
    ({ bufBytes := 2 ^ 31 + 1, base := 0, bufBase := 0x1000 } : Platform).wellFormed = false := by decide
theorem test_platform_base_unaligned :
    ({ bufBytes := 4096, base := 32, bufBase := 0x1000 } : Platform).wellFormed = false := by decide
theorem test_platform_windows_overlap :
    ({ bufBytes := 4096, base := 0x1000, bufBase := 0x103F } : Platform).wellFormed = false := by decide
theorem test_w32_reserved_offset : (HostOp.w32 0x02C 0).wellFormed State.reset.plat = false := by decide
theorem test_r32_unaligned : (HostOp.r32 0x005).wellFormed State.reset.plat = false := by decide
theorem test_w8_on_register : (HostOp.w8 0x008 0).wellFormed State.reset.plat = false := by decide
theorem test_r8_past_buf : (HostOp.r8 0x2000).wellFormed State.reset.plat = false := by decide
theorem test_bw_past_buf : (Line.bw 4095 [0, 0]).wellFormed State.reset.plat = false := by decide
theorem test_br_past_buf : (Line.br 4096 1).wellFormed State.reset.plat = false := by decide

/-! ## Decoding: words written out from the fields of 30_encoding.md R70, RSV in bits 31:8 and OP in bits 7:0,
with the numbers of R73 -/

theorem test_decode_key_commands :
    decode 0b000000000000000000000000_00000001#32 = .ok .keyinit
      ∧ decode 0b000000000000000000000000_00000010#32 = .ok .cleanup := by decide

theorem test_decode_ecb_commands :
    decode 0b000000000000000000000000_00010000#32 = .ok .encb
      ∧ decode 0b000000000000000000000000_00010001#32 = .ok .decb
      ∧ decode 0b000000000000000000000000_00010010#32 = .ok .ecbenc
      ∧ decode 0b000000000000000000000000_00010011#32 = .ok .ecbdec := by decide

theorem test_decode_cbc_commands :
    decode 0b000000000000000000000000_00100000#32 = .ok .setiv
      ∧ decode 0b000000000000000000000000_00100001#32 = .ok .getiv
      ∧ decode 0b000000000000000000000000_00100010#32 = .ok .cbcenc
      ∧ decode 0b000000000000000000000000_00100011#32 = .ok .cbcdec := by decide

theorem test_decode_codec_commands :
    decode 0b000000000000000000000000_00110000#32 = .ok .ld32
      ∧ decode 0b000000000000000000000000_00110001#32 = .ok .st32
      ∧ decode 0b000000000000000000000000_00110010#32 = .ok .ld64
      ∧ decode 0b000000000000000000000000_00110011#32 = .ok .st64
      ∧ decode 0b000000000000000000000000_00110100#32 = .ok .hexenc
      ∧ decode 0b000000000000000000000000_00110101#32 = .ok .hexdec := by decide

/-- R74: OP = 0, an unlisted OP, and RSV other than 0 with a listed OP. -/
theorem test_decode_rejects :
    decode 0x00000000 = .error .unlistedOp ∧ decode 0x00000003 = .error .unlistedOp
      ∧ decode 0x00000036 = .error .unlistedOp ∧ decode 0x00000101 = .error .reservedBits
      ∧ decode 0x80000010 = .error .reservedBits ∧ decode 0xFFFFFFFF = .error .reservedBits := by decide

theorem test_decodeTableWord :
    decodeTableWord 32 0x22 = some .cbcenc ∧ decodeTableWord 8 0x35 = some .hexdec
      ∧ decodeTableWord 32 0x122 = none ∧ decodeTableWord 40 0x100000001 = none := by decide

/-- The word the host places is the one the next step runs: ENCB after reset is FT13 (section 2.8). -/
theorem test_withFetchWord_runs_the_word :
    after (step (State.reset.withFetchWord 32 0x10))
      (fun t => statusWord t == 0x00000042 && t.latch.fcmd == 0x10) = true := by decide

/-- The text of program 1's commands (section 3.1) assembles to its bus encoding, items 3 and 4. -/
theorem test_assembly_text :
    (parseProgram ["wr SRC, 0x000", "wr LEN, 8", "cmd KEYINIT", "wait"]).map (assemble State.reset.plat)
      = some [.w32 0x008 0, .w32 0x010 8, .w32 0x000 0x00000001, .poll] := by decide +kernel

/-! ## The commands, against 95_test_vectors.md -/

/-- FT6, FT10, FT11 (section 2.8): KEYINIT's faults and their order. -/
theorem test_keyinit_faults :
    after (execKeyinit (ranges 0 0 0)) (fun t => statusWord t == 0x00000022) = true
      ∧ after (execKeyinit (ranges 4090 0 57)) (fun t => statusWord t == 0x00000022) = true
      ∧ after (execKeyinit (ranges 4090 0 8)) (fun t => statusWord t == 0x00000032) = true := by decide +kernel

/-- FT9 and KS11: KEYINIT with 56 bytes at 4040 loads; CB13: the IV is 0 after it. -/
theorem test_keyinit_loads :
    after (execKeyinit { ranges 4040 0 56 with iv := 5 }) (fun t => statusWord t == 0x00000001 && t.iv == 0) = true := by
  decide +kernel

/-- KS8 (section 2.1): step 2 alone for the key "abc". -/
theorem test_mixKey_abc :
    pEntry (mixKey [0x61, 0x62, 0x63] Cipher.initial) 0 = 0x455D09E9
      ∧ pEntry (mixKey [0x61, 0x62, 0x63] Cipher.initial) 17 = 0xEA189978 := by decide +kernel

/-- KS9 (section 2.1): the first two encryptions of step 3 for the all-zero key, whose step 2 changes nothing. -/
theorem test_fillP_twice :
    (fillP (fillP (Cipher.initial, (0, 0)) 0) 1).2 = (0x2DB9D714, 0x966E1439)
      ∧ pEntry (fillP (Cipher.initial, (0, 0)) 0).1 0 = 0x706D9FCC
      ∧ pEntry (fillP (Cipher.initial, (0, 0)) 0).1 1 = 0x1792D23A := by decide +kernel

/-- RF2 to RF4 (section 2.2): F on the tables of π. -/
theorem test_roundF :
    roundF Cipher.initial 0x01234567 = 0xF36E574C ∧ roundF Cipher.initial 0xFFFFFFFF = 0x452C2867
      ∧ roundF Cipher.initial 0x80808080 = 0x4A18CD5A := by decide +kernel

/-- ZR1 (section 2.9): CLEANUP zeroes the secrets and keeps SRC, DST, LEN, COUNT and BUF. -/
theorem test_cleanup :
    after (execCleanup (bytesAt 9 [7] { keyed State.reset with
        iv := 0x0123456789ABCDEF, regs := ⟨0x10, 0x20, 8, 1, 2, 0x4EF99745, 0x6198DD78, 16⟩ }))
      (fun t => statusWord t == 0 && t.iv == 0 && t.regs == ⟨0x10, 0x20, 8, 0, 0, 0, 0, 16⟩
        && readByte t 9 == 7 && pEntry t.cipher 0 == 0 && sEntry t.cipher 3 255 == 0) = true := by decide +kernel

/-- FT16 (section 2.8): CLEANUP is performed while FAULT = 1 and leaves the latch. -/
theorem test_cleanup_faulted :
    after (execCleanup (faulty (keyed State.reset)))
      (fun t => statusWord t == 0x00000042 && t.latch.fcmd == 0x10 && pEntry t.cipher 3 == 0) = true := by
  decide +kernel

/-- 41_pi_constants.md R127 through ENCB: EncryptBlock(0, 0) on the tables of π. -/
theorem test_encb :
    after (execEncb (keyed (block 0 0))) (fun t => t.regs == ⟨0, 0, 0, 0, 0, 0x706D9FCC, 0x1792D23A, 0⟩) = true := by
  decide +kernel

/-- SB5 (section 2.3): ENCB without a key. -/
theorem test_encb_noKey :
    after (execEncb State.reset)
      (fun t => statusWord t == 0x00000042 && t.latch.fcmd == 0x10 && t.regs == Regs.zero) = true := by decide +kernel

/-- R127 with 42_ecb_core.md R133 through DECB. -/
theorem test_decb :
    after (execDecb (keyed (block 0x706D9FCC 0x1792D23A))) (fun t => t.regs.rhi == 0 && t.regs.rlo == 0) = true := by
  decide +kernel

/-- R127 and the truncation of BK3 (section 2.4): 13 bytes, one block written, COUNT = 8. -/
theorem test_ecbenc :
    after (execEcbenc (bytesAt 0x108 [0xAA] (bytesAt 0 [0, 0, 0, 0, 0, 0, 0, 0] (keyed (ranges 0 0x100 13)))))
      (fun t => bufIs 0x100 [0x70, 0x6D, 0x9F, 0xCC, 0x17, 0x92, 0xD2, 0x3A, 0xAA] t && t.regs.count == 8) = true := by
  decide +kernel

/-- BK5, BK6, BK8, BK10 (section 2.4): bounds in unbounded integers, and the order of the checks. -/
theorem test_ecbenc_checks :
    after (execEcbenc (keyed (ranges 4096 0 7))) (fun t => !t.latch.fault && t.regs.count == 0) = true
      ∧ after (execEcbenc (keyed (ranges 4097 0 7))) (fun t => statusWord t == 0x00000033 && t.latch.fcmd == 0x12) = true
      ∧ after (execEcbenc (keyed (ranges 0xFFFFFFF8 0 16))) (fun t => statusWord t == 0x00000033) = true
      ∧ after (execEcbenc (ranges 4090 0 8)) (fun t => statusWord t == 0x00000042) = true := by decide +kernel

/-- R127 with R133 through ECBDEC, in place. -/
theorem test_ecbdec :
    after (execEcbdec (bytesAt 8 [0x70, 0x6D, 0x9F, 0xCC, 0x17, 0x92, 0xD2, 0x3A] (keyed (ranges 8 8 8))))
      (fun t => bufIs 8 [0, 0, 0, 0, 0, 0, 0, 0] t && t.regs.count == 8) = true := by decide +kernel

/-- CB11 (section 2.5): SETIV and GETIV need no key. -/
theorem test_setiv_getiv :
    after (execGetiv (result (execSetiv (block 0x11111111 0x22222222))))
      (fun t => t.iv == 0x1111111122222222 && t.regs.rhi == 0x11111111 && t.regs.rlo == 0x22222222
        && statusWord t == 0) = true := by decide +kernel

/-- R127 through CBCENC: the block equals the IV, so the cipher's input is 0 (43_cbc.md R163). -/
theorem test_cbcenc :
    after (execCbcenc (bytesAt 0 [0x01, 0x23, 0x45, 0x67, 0x89, 0xAB, 0xCD, 0xEF]
        { keyed (ranges 0 0 8) with iv := 0x0123456789ABCDEF }))
      (fun t => bufIs 0 [0x70, 0x6D, 0x9F, 0xCC, 0x17, 0x92, 0xD2, 0x3A] t && t.iv == 0x706D9FCC1792D23A
        && t.regs.count == 8) = true := by decide +kernel

/-- CB10, CB12 (section 2.5): LEN = 7 changes nothing but COUNT; without a key the IV stays. -/
theorem test_cbcenc_short :
    after (execCbcenc { keyed (ranges 0 0 7) with iv := 0x0123456789ABCDEF })
        (fun t => t.iv == 0x0123456789ABCDEF && t.buf == [] && t.regs.count == 0) = true
      ∧ after (execCbcenc { ranges 0 0 16 with iv := 9 }) (fun t => t.iv == 9 && t.latch.ecode == 4) = true := by
  decide +kernel

/-- R127 through CBCDEC in place: the raw ciphertext is the next chaining value (43_cbc.md R164). -/
theorem test_cbcdec :
    after (execCbcdec (bytesAt 0 [0x70, 0x6D, 0x9F, 0xCC, 0x17, 0x92, 0xD2, 0x3A]
        { keyed (ranges 0 0 8) with iv := 0x0123456789ABCDEF }))
      (fun t => bufIs 0 [0x01, 0x23, 0x45, 0x67, 0x89, 0xAB, 0xCD, 0xEF] t && t.iv == 0x706D9FCC1792D23A) = true := by
  decide +kernel

/-- LS1, LS8 (section 2.6). -/
theorem test_ld32 :
    after (execLd32 (bytesAt 5 [0xDE, 0xAD, 0xBE, 0xEF] (ranges 5 0 0)))
        (fun t => t.regs.rlo == 0xDEADBEEF && t.regs.rhi == 0) = true
      ∧ after (execLd32 (bytesAt 0 [0xFE, 0xDC, 0xBA, 0x98, 0x76, 0x54, 0x32, 0x10] (ranges 4 0 0)))
        (fun t => t.regs.rlo == 0x76543210) = true := by decide +kernel

/-- LS2, LS5, LS6 (section 2.6): DHI is not read; the last word of BUF; one byte past it. -/
theorem test_st32 :
    after (execSt32 { ranges 0 0x10 0 with regs := ⟨0, 0x10, 0, 0xFFFFFFFF, 0x01020304, 0, 0, 0⟩ })
        (bufIs 0x10 [1, 2, 3, 4]) = true
      ∧ after (execSt32 { ranges 0 0 0 with regs := ⟨0, 4092, 0, 0, 0xCAFEBABE, 0, 0, 0⟩ })
        (fun t => bufIs 4092 [0xCA, 0xFE, 0xBA, 0xBE] t && statusWord t == 0) = true
      ∧ after (execSt32 (ranges 0 4093 0)) (fun t => statusWord t == 0x00000032 && t.latch.fcmd == 0x31) = true := by
  decide +kernel

/-- LS3, LS7 (section 2.6). -/
theorem test_ld64 :
    after (execLd64 (bytesAt 0 [0x01, 0x23, 0x45, 0x67, 0x89, 0xAB, 0xCD, 0xEF] (ranges 0 0 0)))
        (fun t => t.regs.rhi == 0x01234567 && t.regs.rlo == 0x89ABCDEF) = true
      ∧ after (execLd64 (ranges 4089 0 0)) (fun t => statusWord t == 0x00000032 && t.regs.rlo == 0) = true := by
  decide +kernel

/-- LS4 (section 2.6). -/
theorem test_st64 :
    after (execSt64 (block 0xFEDCBA98 0x76543210))
      (bufIs 0 [0xFE, 0xDC, 0xBA, 0x98, 0x76, 0x54, 0x32, 0x10]) = true := by decide +kernel

/-- HX1 (section 2.7), and HX7: in place the characters already written are read. -/
theorem test_hexenc :
    after (execHexenc (bytesAt 0 [0x00, 0xAB, 0x7F] (ranges 0 0x20 3)))
        (fun t => bufIs 0x20 [0x30, 0x30, 0x61, 0x62, 0x37, 0x66] t && t.regs.count == 6) = true
      ∧ after (execHexenc (bytesAt 0 [0x12, 0x34, 0xAB, 0xCD] (ranges 0 0 4)))
        (fun t => bufIs 0 [0x31, 0x32, 0x33, 0x32, 0x33, 0x33, 0x33, 0x32] t && t.regs.count == 8) = true := by
  decide +kernel

/-- HX8 (section 2.7). -/
theorem test_hexenc_bounds :
    after (execHexenc (ranges 0 4090 4)) (fun t => statusWord t == 0x00000032 && t.latch.fcmd == 0x34) = true := by
  decide +kernel

/-- HX3, HX4 (section 2.7): malformed pairs are skipped, an odd last character is not read. -/
theorem test_hexdec :
    after (execHexdec (bytesAt 0x42 [0x77] (bytesAt 0 [0x30, 0x61, 0x47, 0x31, 0x66, 0x66, 0x41, 0x30] (ranges 0 0x40 8))))
        (fun t => bufIs 0x40 [0x0A, 0xFF, 0x77] t && t.regs.count == 2) = true
      ∧ after (execHexdec (bytesAt 0x40 [0x55, 0x55, 0x55] (bytesAt 0 [0x64, 0x65, 0x61, 0x64, 0x62] (ranges 0 0x40 5))))
        (fun t => bufIs 0x40 [0xDE, 0xAD, 0x55] t && t.regs.count == 2) = true := by decide +kernel

/-- HX5 (section 2.7): in place. -/
theorem test_hexdec_inPlace :
    after (execHexdec (bytesAt 0 [0x30, 0x31, 0x32, 0x33, 0x61, 0x62, 0x63, 0x64] (ranges 0 0 8)))
      (fun t => bufIs 0 [0x01, 0x23, 0xAB, 0xCD, 0x61, 0x62, 0x63, 0x64] t && t.regs.count == 4) = true := by
  decide +kernel

/-- FT1 to FT5 (section 2.8): illegal words. -/
theorem test_illegal_words :
    ([0x00000000, 0x00000003, 0x00000101, 0xFFFFFFFF, 0x00000014] : List Word).all
      (fun w => after (step (pending w 0 State.reset)) (fun t => statusWord t == 0x00000012 && t.latch.fcmd == w))
      = true := by decide +kernel

/-- ZR4 (section 2.9): reset in a faulted state with a key. -/
theorem test_reset_event :
    after (step (hostDoes [.resetSignal] (faulty (keyed (ranges 1 2 3)))))
      (fun t => statusWord t == 0 && t.latch.fcmd == 0 && t.regs == Regs.zero && pEntry t.cipher 0 == 0) = true := by
  decide +kernel

/-- The busy duty (70_reset_and_hazards.md R244): a register write while BUSY = 1 is refused. -/
theorem test_busy_hazard :
    step (hostDoes [.w32 0x008 1] (pending 0x21 3 State.reset)) = .refused .busyHazard := by rfl

/-! ## Witnesses: a state and operands that meet each statement's hypotheses, clause by clause -/

/-- A state with no key meets the invariant when its other clauses hold. -/
theorem tables_of_noKey {s : State} (hk : s.keyv = false) (hc : s.cipher = Cipher.zero) : tablesMatchKeyv s :=
  (if_neg (by rw [hk]; exact Bool.false_ne_true)).mpr hc

theorem witness_DecodeAndEncodeAgree :
    Instr.hexdec.wellFormed = true ∧ decode 0x35 = .ok .hexdec := by decide

theorem witness_EveryStepKeepsTheInvariant_engine :
    ∃ s t : State, s.Inv ∧ step s = .next t :=
  ⟨pending 0x31 0 (ranges 0 4092 0), result (step (pending 0x31 0 (ranges 0 4092 0))),
    ⟨by decide, by decide, by decide, by decide, tables_of_noKey rfl rfl, fun _ => rfl⟩, by rfl⟩

theorem witness_EveryStepKeepsTheInvariant_host :
    ∃ s t : State, s.Inv ∧ step s = .next t :=
  ⟨hostDoes [.w8 0x1FFF 7] State.reset, result (step (hostDoes [.w8 0x1FFF 7] State.reset)),
    ⟨by decide, by decide, by decide, by decide, tables_of_noKey rfl rfl, fun h => absurd h (by decide)⟩, by rfl⟩

theorem witness_EveryStepKeepsTheInvariant_key :
    ∃ s t : State, s.Inv ∧ s.keyv = true ∧ step s = .next t :=
  ⟨loadSchedule (keySchedule [1]) State.reset, loadSchedule (keySchedule [1]) State.reset,
    ⟨by decide, by decide, by decide, by decide, ⟨[1], by decide, by decide, rfl⟩, fun h => absurd h (by decide)⟩,
    rfl, by rfl⟩

theorem witness_HostAccessesRegistersByAlignedWords :
    hostFree (hostDoes [.w32 0x010 8] State.reset)
      ∧ nextOp (hostDoes [.w32 0x010 8] State.reset) = some (.w32 (State.reset.plat.base + regOffset .len) 8)
      ∧ nextOp (hostDoes [.r32 0x028] State.reset) = some (.r32 (State.reset.plat.base + regOffset .fcmd))
      ∧ nextOp (hostDoes [.w32 0x001 8] State.reset) = some (.w32 (State.reset.plat.base + 0x001) 8)
      ∧ nextOp (hostDoes [.r32 0x03F] State.reset) = some (.r32 (State.reset.plat.base + 0x03F))
      ∧ nextOp (hostDoes [.w32 0x02C 8] State.reset) = some (.w32 (State.reset.plat.base + 0x02C) 8)
      ∧ nextOp (hostDoes [.r32 0x03C] State.reset) = some (.r32 (State.reset.plat.base + 0x03C))
      ∧ nextOp (hostDoes [.w8 0x000 8] State.reset) = some (.w8 (State.reset.plat.base + 0) 8)
      ∧ nextOp (hostDoes [.r8 0x03F] State.reset) = some (.r8 (State.reset.plat.base + 0x03F)) := by
  unfold hostFree; decide

theorem witness_HostAccessesBufferByBytes :
    hostFree (hostDoes [.w8 0x1FFF 7] State.reset) ∧ State.reset.plat.wellFormed = true
      ∧ 4095 < State.reset.plat.bufBytes
      ∧ nextOp (hostDoes [.w8 0x1FFF 7] State.reset) = some (.w8 (State.reset.plat.bufBase + 4095) 7)
      ∧ nextOp (hostDoes [.r8 0x1000] State.reset) = some (.r8 (State.reset.plat.bufBase + 0)) := by
  unfold hostFree; decide

theorem witness_OperandRegistersReadBack :
    Reg.dlo ∈ [Reg.src, .dst, .len, .dhi, .dlo] ∧ Reg.dhi ≠ Reg.dlo := by decide

theorem witness_CommandsWriteOnlyTheirRegisters :
    ∃ t, exec .setiv (block 1 2) = .next t ∧ Instr.setiv ≠ .cleanup
      ∧ Instr.setiv ∉ [Instr.encb, .decb, .getiv, .ld32, .ld64, .cleanup]
      ∧ Instr.setiv ∉ [Instr.ecbenc, .ecbdec, .cbcenc, .cbcdec, .hexenc, .hexdec] :=
  ⟨result (exec .setiv (block 1 2)), by rfl, by decide, by decide, by decide⟩

theorem witness_CmdWriteStartsACommand :
    hostFree (hostDoes [.w32 0 0x22] State.reset)
      ∧ nextOp (hostDoes [.w32 0 0x22] State.reset) = some (.w32 State.reset.plat.base 0x22) := by
  unfold hostFree; decide

theorem witness_StepRunsThePendingCommand :
    enginePending (pending 0x30 0 State.reset) ∧ decode (pending 0x30 0 State.reset).cmd = .ok .ld32 := by
  unfold enginePending; decide

theorem witness_IllegalWordRaisesIllegalCommand :
    enginePending (pending 0x101 0 State.reset) ∧ (pending 0x101 0 State.reset).latch.fault = false
      ∧ rsvField (pending 0x101 0 State.reset).cmd ≠ 0
      ∧ (∀ i, ((pending 0x00 0 State.reset).cmd, i) ∉ listedWords)
      ∧ ∀ i, ((pending 0x36 0 State.reset).cmd, i) ∉ listedWords :=
  ⟨⟨rfl, rfl⟩, rfl, by decide, fun i => by cases i <;> decide, fun i => by cases i <;> decide⟩

theorem witness_HostMayOnlyReadStatusWhileBusy_busy :
    (pending 0x21 1 State.reset).busy = true ∧ ¬ enginePending (pending 0x21 1 State.reset)
      ∧ nextOp (hostDoes [.w32 0x000 1] (pending 0x21 1 State.reset)) = some (.w32 0x000 1)
      ∧ nextOp (hostDoes [.r32 0x008] (pending 0x21 1 State.reset)) = some (.r32 0x008)
      ∧ nextOp (hostDoes [.w8 0x1000 1] (pending 0x21 1 State.reset)) = some (.w8 0x1000 1)
      ∧ nextOp (hostDoes [.r8 0x1000] (pending 0x21 1 State.reset)) = some (.r8 0x1000)
      ∧ nextOp (hostDoes [.r32 0x004] (pending 0x21 1 State.reset)) = some (.r32 (State.reset.plat.base + 0x004))
      ∧ nextOp (hostDoes [.poll] (pending 0x21 1 State.reset)) = some .poll
      ∧ nextOp (hostDoes [.resetSignal] (pending 0x21 1 State.reset)) = some .resetSignal := by
  unfold enginePending; decide

/-- The command is done and the host has not yet seen it. -/
theorem witness_HostMayOnlyReadStatusWhileBusy_unseen :
    (clearBusy (pending 0x21 0 State.reset)).host.mustPoll = true
      ∧ ¬ enginePending (clearBusy (pending 0x21 0 State.reset))
      ∧ nextOp (hostDoes [.r32 0x004] (clearBusy (pending 0x21 0 State.reset)))
        = some (.r32 (State.reset.plat.base + 0x004)) := by unfold enginePending; decide

theorem witness_PendingCommandCompletes :
    (hostDoes [.poll] (pending 0x21 2 State.reset)).busy = true
      ∧ nextOp (hostDoes [.poll] (pending 0x21 2 State.reset)) = some .poll
      ∧ (pending 0x21 0 State.reset).busy = true ∧ nextOp (pending 0x21 0 State.reset) = none := by decide

theorem witness_ResetClearsEveryElement :
    ¬ enginePending (hostDoes [.resetSignal] (faulty (ranges 1 2 3)))
      ∧ nextOp (hostDoes [.resetSignal] (faulty (ranges 1 2 3))) = some .resetSignal
      ∧ ¬ enginePending (hostDoes [.resetSignal] (pending 0x21 1 State.reset))
      ∧ nextOp (hostDoes [.resetSignal] (pending 0x21 1 State.reset)) = some .resetSignal := by
  unfold enginePending; decide

theorem witness_OnlyKeyCommandsAndResetWriteTables_command :
    ∃ t, step (pending 0x02 0 (keyed State.reset)) = .next t ∧ t.cipher ≠ (pending 0x02 0 (keyed State.reset)).cipher :=
  ⟨result (step (pending 0x02 0 (keyed State.reset))), by rfl, by decide +kernel⟩

theorem witness_OnlyKeyCommandsAndResetWriteTables_reset :
    ∃ t, step (hostDoes [.resetSignal] (keyed State.reset)) = .next t ∧ t.cipher ≠ (keyed State.reset).cipher :=
  ⟨result (step (hostDoes [.resetSignal] (keyed State.reset))), by rfl, by decide +kernel⟩

theorem witness_OnlyResetClearsTheFaultLatch :
    (faulty State.reset).latch.fault = true
      ∧ (∃ t, step (pending 0x01 0 (faulty State.reset)) = .next t)
      ∧ ∃ t, step (hostDoes [.resetSignal] (faulty State.reset)) = .next t :=
  ⟨rfl, ⟨result (step (pending 0x01 0 (faulty State.reset))), by rfl⟩,
    result (step (hostDoes [.resetSignal] (faulty State.reset))), by rfl⟩

theorem witness_TablesWithoutAKeyAreUnobservable :
    (pending 0x10 0 State.reset).keyv = false ∧ ∃ t, step (pending 0x10 0 State.reset) = .next t :=
  ⟨rfl, result (step (pending 0x10 0 State.reset)), by rfl⟩

theorem witness_FaultedStateIgnoresCommands :
    (faulty State.reset).latch.fault = true ∧ enginePending (pending 0x01 0 (faulty State.reset))
      ∧ (pending 0x01 0 (faulty State.reset)).cmd ≠ 0x00000002
      ∧ (pending 0x02 0 (faulty State.reset)).cmd = 0x00000002
      ∧ hostFree (hostDoes [.w32 0x010 8] (faulty State.reset))
      ∧ nextOp (hostDoes [.w32 0x010 8] (faulty State.reset)) = some (.w32 (State.reset.plat.base + regOffset .len) 8)
      ∧ State.reset.plat.wellFormed = true ∧ 4095 < State.reset.plat.bufBytes
      ∧ nextOp (hostDoes [.w8 0x1FFF 7] (faulty State.reset)) = some (.w8 (State.reset.plat.bufBase + 4095) 7)
      ∧ nextOp (hostDoes [.r8 0x1000] (faulty State.reset)) = some (.r8 (State.reset.plat.bufBase + 0)) := by
  unfold hostFree enginePending; decide

theorem witness_FaultEntryWritesOnlyTheLatch :
    enginePending (pending 0x30 0 (ranges 4093 0 0)) ∧ (ranges 4093 0 0).latch.fault = false
      ∧ ∃ t, step (pending 0x30 0 (ranges 4093 0 0)) = .next t ∧ t.latch.fault = true :=
  ⟨⟨rfl, rfl⟩, rfl, result (step (pending 0x30 0 (ranges 4093 0 0))), by rfl, by decide⟩

/-- One state for each clause: a latched fault, an illegal word, no key, a bad key length at both ends, a bad
range, and a command all of whose checks hold. -/
theorem witness_FirstFailingCheckIsReported :
    enginePending (pending 0x01 0 (faulty State.reset))
      ∧ (∃ t, step (pending 0x01 0 (faulty State.reset)) = .next t)
      ∧ (∀ i, decode (pending 0x03 0 State.reset).cmd ≠ .ok i)
      ∧ (decode (pending 0x12 0 (ranges 4090 0 8)).cmd = .ok .ecbenc ∧ Instr.ecbenc ∈ keyedCommands
          ∧ (ranges 4090 0 8).keyv = false)
      ∧ (decode (pending 0x01 0 (ranges 0 0 0)).cmd = .ok .keyinit ∧ len (ranges 0 0 0) < 1
          ∧ 56 < len (ranges 4090 0 57))
      ∧ ¬ rangesHold .ecbenc (keyed (ranges 4090 0 8)) ∧ rangesHold .ecbenc (keyed (ranges 4088 4088 8))
      ∧ (1 ≤ len (ranges 0 0 56) ∧ len (ranges 0 0 56) ≤ 56) :=
  ⟨⟨rfl, rfl⟩, ⟨result (step (pending 0x01 0 (faulty State.reset))), by rfl⟩, fun i => by cases i <;> decide,
    by decide, by decide, by unfold rangesHold; decide, by unfold rangesHold; decide, by decide⟩

theorem witness_CipherCommandWithoutKeyFaults :
    State.reset.latch.fault = false ∧ State.reset.keyv = false ∧ Instr.cbcdec ∈ keyedCommands := by decide

theorem witness_RangeOutOfBoundsFaults :
    (keyed (ranges 4089 0 8)).latch.fault = false ∧ (keyed (ranges 4089 0 8)).keyv = true
      ∧ (∃ r ∈ checkedRanges .cbcenc (keyed (ranges 4089 0 8)), State.reset.plat.bufBytes < r.1 + r.2)
      ∧ (1 ≤ len (ranges 4041 0 56) ∧ len (ranges 4041 0 56) ≤ 56)
      ∧ ∃ r ∈ checkedRanges .keyinit (ranges 4041 0 56), State.reset.plat.bufBytes < r.1 + r.2 := by decide

theorem witness_KeyinitLoadsTheSchedule :
    (faulty State.reset).latch.fault = true ∧ State.reset.latch.fault = false
      ∧ len (ranges 0 0 0) < 1 ∧ 56 < len (ranges 0 0 57)
      ∧ (1 ≤ len (ranges 4096 0 1) ∧ len (ranges 4096 0 1) ≤ 56
          ∧ State.reset.plat.bufBytes < src (ranges 4096 0 1) + len (ranges 4096 0 1))
      ∧ (1 ≤ len (ranges 4040 0 56) ∧ len (ranges 4040 0 56) ≤ 56
          ∧ src (ranges 4040 0 56) + len (ranges 4040 0 56) ≤ State.reset.plat.bufBytes) := by decide

theorem witness_KeyIsMixedCyclicallyBigEndian : ([0x61, 0x62, 0x63] : List Byte) ≠ [] := by decide

/-- R103's order: P[17] is entry 17, S[0][0] entry 18 and S[3][255] entry 1041, with the values of R127; turn
520 is the last. -/
theorem witness_ScheduleStartsWithTheEncryptedZeroBlock :
    0 < 521 ∧ 520 < 521 ∧ tableEntry Cipher.initial 17 = 0x8979FB1B ∧ tableEntry Cipher.initial 18 = 0xD1310BA6
      ∧ tableEntry Cipher.initial (2 * 520 + 1) = 0x3AC372E6 := by decide +kernel

/-- The tables in the midst of step 3: entries below the number are new, that entry and the later ones old. -/
theorem test_partlyFilled_bounds :
    let t := partlyFilled Cipher.initial Cipher.zero 18
    tableEntry t 17 = 0 ∧ tableEntry t 18 = 0xD1310BA6
      ∧ tableEntry (partlyFilled Cipher.initial Cipher.zero 1041) 1040 = 0
      ∧ tableEntry (partlyFilled Cipher.initial Cipher.zero 1041) 1041 = 0x3AC372E6 := by decide +kernel

/-- KS7 (95_test_vectors.md section 2.1): 01 and 01 × 8 have the same stream; 28 bytes is the longest K for K||K. -/
theorem witness_EqualKeyStreamsGiveEqualSchedules :
    (∀ j < 72, ([1] : List Byte).getD (j % 1) 0 = (List.replicate 8 (1 : Byte)).getD (j % 8) 0)
      ∧ 1 ≤ (List.replicate 28 (5 : Byte)).length ∧ (List.replicate 28 (5 : Byte)).length ≤ 28 := by decide

theorem witness_registerBlockCommands :
    (faulty State.reset).latch.fault = true ∧ (State.reset.latch.fault = false ∧ State.reset.keyv = false)
      ∧ ((keyed State.reset).latch.fault = false ∧ (keyed State.reset).keyv = true) := by decide

/-- The four clauses of ECBENC, ECBDEC, CBCENC and CBCDEC: each side of each bound. -/
theorem witness_blockCommandsInOrder :
    (faulty State.reset).latch.fault = true ∧ (State.reset.latch.fault = false ∧ State.reset.keyv = false)
      ∧ ((keyed (ranges 4089 0 15)).keyv = true
          ∧ State.reset.plat.bufBytes < src (keyed (ranges 4089 0 15)) + wholeBytes (keyed (ranges 4089 0 15)))
      ∧ State.reset.plat.bufBytes < dst (keyed (ranges 0 4089 15)) + wholeBytes (keyed (ranges 0 4089 15))
      ∧ ((keyed (ranges 4088 4088 15)).latch.fault = false
          ∧ src (keyed (ranges 4088 4088 15)) + wholeBytes (keyed (ranges 4088 4088 15)) ≤ State.reset.plat.bufBytes
          ∧ dst (keyed (ranges 4088 4088 15)) + wholeBytes (keyed (ranges 4088 4088 15)) ≤ State.reset.plat.bufBytes) := by
  decide

/-- In place, and apart by nothing more than the range's length: for EcbInPlaceAndApartGiveTheSameBlocks,
EcbRoundTripRestoresThePlaintext, CbcChainsThroughTheCiphertext and WrongIvSpoilsOnlyTheFirstBlock. -/
theorem witness_inPlaceOrApart :
    (keyed (ranges 0 16 16)).latch.fault = false ∧ (keyed (ranges 0 16 16)).keyv = true
      ∧ 8 ≤ wholeBytes (keyed (ranges 0 16 16))
      ∧ src (keyed (ranges 0 16 16)) + wholeBytes (keyed (ranges 0 16 16)) ≤ State.reset.plat.bufBytes
      ∧ dst (keyed (ranges 0 16 16)) + wholeBytes (keyed (ranges 0 16 16)) ≤ State.reset.plat.bufBytes
      ∧ inPlaceOrApart (src (keyed (ranges 0 16 16))) (dst (keyed (ranges 0 16 16)))
          (wholeBytes (keyed (ranges 0 16 16)))
      ∧ inPlaceOrApart (src (keyed (ranges 8 8 16))) (dst (keyed (ranges 8 8 16)))
          (wholeBytes (keyed (ranges 8 8 16))) := by
  unfold inPlaceOrApart apart; decide

theorem witness_ivCommands :
    (faulty (block 1 2)).latch.fault = true ∧ (block 1 2).latch.fault = false := by decide

/-- CB4 (95_test_vectors.md section 2.5): 16 bytes as 8 and 8. -/
theorem witness_CbcencSplitsAcrossCommands :
    (keyed (ranges 0 0 16)).latch.fault = false ∧ (keyed (ranges 0 0 16)).keyv = true ∧ (8 : Word).toNat % 8 = 0
      ∧ len (keyed (ranges 0 0 16)) = (8 : Word).toNat + (8 : Word).toNat
      ∧ src (keyed (ranges 0 0 16)) + len (keyed (ranges 0 0 16)) ≤ State.reset.plat.bufBytes
      ∧ dst (keyed (ranges 0 0 16)) + len (keyed (ranges 0 0 16)) ≤ State.reset.plat.bufBytes
      ∧ State.reset.plat.bufBytes < 2 ^ 32 := by decide

theorem witness_CbcRoundTripRestoresThePlaintext :
    (keyed (ranges 0 0x20 24)).latch.fault = false ∧ (keyed (ranges 0 0x20 24)).keyv = true
      ∧ src (keyed (ranges 0 0x20 24)) + wholeBytes (keyed (ranges 0 0x20 24)) ≤ State.reset.plat.bufBytes
      ∧ dst (keyed (ranges 0 0x20 24)) + wholeBytes (keyed (ranges 0 0x20 24)) ≤ State.reset.plat.bufBytes
      ∧ (0xFE8 : Word).toNat + wholeBytes (keyed (ranges 0 0x20 24)) ≤ State.reset.plat.bufBytes
      ∧ inPlaceOrApart (src (keyed (ranges 0 0x20 24))) (dst (keyed (ranges 0 0x20 24)))
          (wholeBytes (keyed (ranges 0 0x20 24)))
      ∧ inPlaceOrApart (dst (keyed (ranges 0 0x20 24))) (0xFE8 : Word).toNat
          (wholeBytes (keyed (ranges 0 0x20 24))) ∧ wholeBytes (keyed (ranges 0 0x20 24)) ≠ 0 := by
  unfold inPlaceOrApart apart; decide

/-- LD32, ST32, LD64, ST64: a latched fault, the first offset out of bounds, the last one in bounds. -/
theorem witness_codecWords :
    (faulty State.reset).latch.fault = true ∧ (ranges 4093 4093 0).latch.fault = false
      ∧ State.reset.plat.bufBytes < src (ranges 4093 4093 0) + 4
      ∧ State.reset.plat.bufBytes < dst (ranges 4093 4093 0) + 4
      ∧ src (ranges 4092 4092 0) + 4 ≤ State.reset.plat.bufBytes
      ∧ dst (ranges 4092 4092 0) + 4 ≤ State.reset.plat.bufBytes
      ∧ State.reset.plat.bufBytes < src (ranges 4089 4089 0) + 8
      ∧ State.reset.plat.bufBytes < dst (ranges 4089 4089 0) + 8
      ∧ src (ranges 4088 4088 0) + 8 ≤ State.reset.plat.bufBytes
      ∧ dst (ranges 4088 4088 0) + 8 ≤ State.reset.plat.bufBytes := by decide

/-- HEXENC and HEXDEC: a latched fault, each range one byte too long, both ranges just in bounds. -/
theorem witness_hexCommands :
    (faulty State.reset).latch.fault = true ∧ (ranges 4093 0 4).latch.fault = false
      ∧ State.reset.plat.bufBytes < src (ranges 4093 0 4) + len (ranges 4093 0 4)
      ∧ State.reset.plat.bufBytes < dst (ranges 0 4089 4) + 2 * len (ranges 0 4089 4)
      ∧ src (ranges 4092 4088 4) + len (ranges 4092 4088 4) ≤ State.reset.plat.bufBytes
      ∧ dst (ranges 4092 4088 4) + 2 * len (ranges 4092 4088 4) ≤ State.reset.plat.bufBytes
      ∧ State.reset.plat.wellFormed = true
      ∧ State.reset.plat.bufBytes < src (ranges 4093 0 5) + 2 * (len (ranges 4093 0 5) / 2)
      ∧ State.reset.plat.bufBytes < dst (ranges 0 4095 5) + len (ranges 0 4095 5) / 2
      ∧ src (ranges 4092 4094 5) + 2 * (len (ranges 4092 4094 5) / 2) ≤ State.reset.plat.bufBytes
      ∧ dst (ranges 4092 4094 5) + len (ranges 4092 4094 5) / 2 ≤ State.reset.plat.bufBytes := by decide

/-- HX1 and HX2 (95_test_vectors.md section 2.7), the second command's target in place or apart. -/
theorem witness_HexRoundTripRestoresTheBytes :
    (ranges 0 0x20 3).latch.fault = false ∧ src (ranges 0 0x20 3) + len (ranges 0 0x20 3) ≤ State.reset.plat.bufBytes
      ∧ dst (ranges 0 0x20 3) + 2 * len (ranges 0 0x20 3) ≤ State.reset.plat.bufBytes
      ∧ apart (src (ranges 0 0x20 3)) (len (ranges 0 0x20 3)) (dst (ranges 0 0x20 3)) (2 * len (ranges 0 0x20 3))
      ∧ (6 : Word).toNat = 2 * len (ranges 0 0x20 3)
      ∧ (0x40 : Word).toNat + len (ranges 0 0x20 3) ≤ State.reset.plat.bufBytes
      ∧ (0x20 : Word) = (ranges 0 0x20 3).regs.dst
      ∧ apart (0x40 : Word).toNat (len (ranges 0 0x20 3)) (dst (ranges 0 0x20 3)) (2 * len (ranges 0 0x20 3)) := by
  unfold apart; decide

theorem witness_FrameOfCommandsThatStoreNothing :
    Instr.getiv ∈ [Instr.keyinit, .cleanup, .encb, .decb, .setiv, .getiv, .ld32, .ld64]
      ∧ (∃ t, exec .getiv State.reset = .next t) ∧ (∃ t, exec .keyinit (ranges 0 0 0) = .next t)
      ∧ ∃ t, exec .setiv (block 1 2) = .next t :=
  ⟨by decide, ⟨result (exec .getiv State.reset), by rfl⟩, ⟨result (exec .keyinit (ranges 0 0 0)), by rfl⟩,
    result (exec .setiv (block 1 2)), by rfl⟩

theorem witness_FrameOfStoringCommands :
    Instr.st32 ∈ [Instr.st32, .st64, .ecbenc, .ecbdec, .cbcenc, .cbcdec, .hexenc, .hexdec]
      ∧ (∃ t, exec .st32 (ranges 0 4092 0) = .next t)
      ∧ (4091 < dst (ranges 0 4092 0) ∨ dst (ranges 0 4092 0) + 4 ≤ 4096)
      ∧ ∃ t, exec .hexdec (ranges 0 0 0) = .next t :=
  ⟨by decide, ⟨result (exec .st32 (ranges 0 4092 0)), by rfl⟩, by decide, result (exec .hexdec (ranges 0 0 0)),
    by rfl⟩

end Sys2Proof.Tests
end

section
/-! PROOF. A pending command completes: while its latency runs a polling or finished host stays where it is, and
the engine's turn ends with BUSY = 0. -/

namespace Sys2Proof.Machine

/-- An illegal word, ignored or faulting, leaves the host alone. -/
theorem runIllegal_host (w : Word) (s : State) : (runIllegal w s).host = s.host := by
  obtain ⟨_, e⟩ | ⟨_, e⟩ := runIllegal_cases w s
  · rw [e]
  · rw [e, raiseFault_host]

/-- The engine's turn always ends its command (10_state.md R28) and does not touch the host. -/
theorem engineTurn_completes (s : State) : ∃ t, engineTurn s = .next t ∧ t.busy = false ∧ t.host = s.host := by
  obtain ⟨_, u, _, he, e⟩ | ⟨_, e⟩ := engineTurn_cases s
  · exact ⟨_, e, rfl, by rw [clearBusy_host, exec_host he]⟩
  · exact ⟨_, e, rfl, by rw [clearBusy_host, runIllegal_host]⟩

theorem hostTurn_op {s : State} {op : HostOp} (h : nextOp s = some op) : hostTurn s = performOp op s := by
  simp only [hostTurn, h]

theorem hostTurn_none {s : State} (h : nextOp s = none) : hostTurn s = .next s := by
  simp only [hostTurn, h]

/-- The duty of 70_reset_and_hazards.md R244 never refuses a `wait`. -/
theorem performOp_poll (s : State) : performOp .poll s = .next (pollStatus s) := by
  simp only [performOp, allowedWhileBusy, Bool.not_true, Bool.and_false, Bool.false_eq_true, if_false]

/-- A `wait` that reads BUSY = 1 stays at its line (30_encoding.md R76). -/
theorem pollStatus_busy {s : State} (hb : s.busy = true) : pollStatus s = hostReadReg .status s := by
  simp only [pollStatus, showsBusy_statusWord, hb, if_true]

/-- A register read leaves the host's program and its place in it alone. -/
theorem nextOp_hostReadReg (r : Reg) (s : State) : nextOp (hostReadReg r s) = nextOp s := by cases r <;> rfl

theorem hostReadReg_pc (r : Reg) (s : State) : (hostReadReg r s).host.pc = s.host.pc := by cases r <;> rfl

theorem waited_latency {s : State} (hb : s.busy = true) : (waited s).latency = s.latency - 1 := by
  simp only [waited, hb, if_true, passTime_latency]

/-- While a command's latency runs, a step of a host that polls or has no operation left takes one from the
latency and leaves the host at the same operation. -/
theorem step_whileLatencyRuns {s : State} (hb : s.busy = true) (hl : s.latency ≠ 0)
    (ho : nextOp s = some .poll ∨ nextOp s = none) :
    ∃ u, step s = .next u ∧ u.busy = true ∧ u.latency = s.latency - 1 ∧ nextOp u = nextOp s
      ∧ u.host.pc = s.host.pc := by
  have hw : (waited s).busy = true := by rw [waited_busy, hb]
  rw [step_host fun h => hl h.2]
  obtain hp | hn := ho
  · rw [hostTurn_op ((nextOp_waited s).trans hp), performOp_poll, pollStatus_busy hw]
    refine ⟨_, rfl, ?_, ?_, ?_, ?_⟩
    · rw [hostReadReg_frame, hw]
    · rw [hostReadReg_frame, waited_latency hb]
    · rw [nextOp_hostReadReg, nextOp_waited]
    · rw [hostReadReg_pc, waited_host]
  · rw [hostTurn_none ((nextOp_waited s).trans hn)]
    exact ⟨_, rfl, hw, waited_latency hb, nextOp_waited s, by rw [waited_host]⟩

/-- A pending command with latency `n` is complete after `n + 1` steps: each of the first `n` uses up one step of
the latency, the last is the engine's. -/
theorem run_completes (n : Nat) {s : State} (hb : s.busy = true) (hl : s.latency = n)
    (ho : nextOp s = some .poll ∨ nextOp s = none) :
    ∃ t, Host.Core.run core (n + 1) s = .next t ∧ t.busy = false ∧ t.host.pc = s.host.pc := by
  induction n generalizing s with
  | zero =>
    obtain ⟨t, ht, htb, hth⟩ := engineTurn_completes s
    rw [← step_engine hb hl] at ht
    exact ⟨t, run_succ ht 0, htb, by rw [hth]⟩
  | succ n ih =>
    obtain ⟨u, hu, hub, hul, huo, hpc⟩ := step_whileLatencyRuns hb (by omega) ho
    obtain ⟨t, ht, htb, htpc⟩ := ih hub (by omega) (by rwa [huo])
    exact ⟨t, by rw [run_succ hu, ht], htb, by rw [htpc, hpc]⟩

/-- Settles O16, by induction on the pending command's latency. -/
theorem pendingCommandCompletes : Obligations.PendingCommandCompletes := by
  unfold Obligations.PendingCommandCompletes
  exact fun s hb ho => run_completes s.latency hb rfl ho

end Sys2Proof.Machine
end

section
/-! SUPPORT. The host's operations in both directions: `OpDone` says exactly what `performOp` answers, so a step of
the host is both taken apart and built from it; and what an operation leaves of the engine. -/

namespace Sys2Proof.Machine

open Sys2Proof.Claims

/-- What an operation can do, it does. -/
theorem performOp_of_opDone {s t : State} {op : HostOp} (h : OpDone s op t) : performOp op s = .next t := by
  cases h with
  | wrote r v hf => rw [performOp_free hf]; simp only [busWrite32, busTarget_regOffset]
  | hasRead r hr =>
    have ha : (onlyStatus s && !allowedWhileBusy s.plat (.r32 (s.plat.base + regOffset r))) = false := by
      cases ho : onlyStatus s
      · rfl
      · rw [hr ho]; simp [allowedWhileBusy, busTarget_regOffset]
    simp only [performOp, ha, busRead32, busTarget_regOffset, Bool.false_eq_true, if_false]
  | wroteByte a off b hf hb => rw [performOp_free hf]; simp only [busWrite8, hb]
  | hasReadByte a off hf hb => rw [performOp_free hf]; simp only [busRead8, hb]
  | polled => exact performOp_poll s
  | wasReset => simp [performOp, allowedWhileBusy]

/-- A step in which the engine does not act is the host's next operation. -/
theorem step_of_opDone {s t : State} {op : HostOp} (hm : ¬ enginePending s) (ho : nextOp s = some op)
    (h : OpDone (waited s) op t) : step s = .next t := by
  rw [step_host hm, hostTurn_op ((nextOp_waited s).trans ho), performOp_of_opDone h]

theorem onlyStatus_free {s : State} (h : hostFree s) : onlyStatus s = false := by
  obtain ⟨hb, hp⟩ := h
  simp only [onlyStatus, hb, hp, Bool.or_self]

/-- A free host's step is its next operation. -/
theorem step_of_opDone_free {s t : State} {op : HostOp} (hf : hostFree s) (ho : nextOp s = some op)
    (h : OpDone s op t) : step s = .next t := by
  rw [step_op hf.1 ho, performOp_of_opDone h]

/-- The reset apart, no operation changes the platform, P, S, IV, KEYV, the latch or the key of the free bytes. -/
theorem opDone_frame {s t : State} {op : HostOp} (h : OpDone s op t) (hr : op ≠ .resetSignal) :
    t = { s with
      busy := t.busy, cmd := t.cmd, regs := t.regs, buf := t.buf, latency := t.latency
      schedule := t.schedule, host := t.host } := by
  cases h with
  | wrote r v _ => cases r <;> rfl
  | hasRead r _ => cases r <;> rfl
  | wroteByte | hasReadByte => rfl
  | polled => rw [pollStatus_frame]
  | wasReset => exact absurd rfl hr

theorem enginePending_iff (s : State) : enginePending s ↔ engineMoves s = true := (engineMoves_iff s).symm

theorem not_enginePending {s : State} (h : engineMoves s = false) : ¬ enginePending s := by
  rw [enginePending_iff, h]; exact Bool.false_ne_true

end Sys2Proof.Machine
end

section
/-! SUPPORT. What each command leaves alone: the tables, IV, the registers and BUF, first of its effect, then of
`exec` (30_encoding.md R71, 60_exceptions.md R217, R219). -/

namespace Sys2Proof.Machine

/-- What holds of a command's effect, and of the state with any latch, holds of every state the command answers:
an ignored command and a fault change the latch at most. -/
theorem exec_induction {i : Instr} {s t : State} {motive : State → Prop} (h : exec i s = .next t)
    (latched : ∀ l, motive { s with latch := l })
    (effect : (∀ c ∈ checksOf s i, c.1 = true) → motive (effectOf s i)) : motive t := by
  obtain ⟨_, _, e⟩ | ⟨c, _, _, _, e⟩ | ⟨_, hc, e⟩ := exec_cases i s <;> rw [e] at h <;> cases h
  · exact latched s.latch
  · exact latched _
  · exact effect hc

/-! ## Effects -/

section
variable (mode : DWord → DWord → DWord × DWord) (s : State)
@[simp] theorem bulkEffect_cipher : (bulkEffect mode s).cipher = s.cipher := by rw [bulkEffect_frame]
@[simp] theorem bulkEffect_keyv : (bulkEffect mode s).keyv = s.keyv := by rw [bulkEffect_frame]
@[simp] theorem hexEncodeEffect_cipher : (hexEncodeEffect s).cipher = s.cipher := by rw [hexEncodeEffect_frame]
@[simp] theorem hexEncodeEffect_keyv : (hexEncodeEffect s).keyv = s.keyv := by rw [hexEncodeEffect_frame]
@[simp] theorem hexEncodeEffect_iv : (hexEncodeEffect s).iv = s.iv := by rw [hexEncodeEffect_frame]
@[simp] theorem hexDecodeEffect_cipher : (hexDecodeEffect s).cipher = s.cipher := by rw [hexDecodeEffect_frame]
@[simp] theorem hexDecodeEffect_keyv : (hexDecodeEffect s).keyv = s.keyv := by rw [hexDecodeEffect_frame]
@[simp] theorem hexDecodeEffect_iv : (hexDecodeEffect s).iv = s.iv := by rw [hexDecodeEffect_frame]
end

theorem effectOf_tables {i : Instr} (s : State) (h : i ∉ [Instr.keyinit, .cleanup]) :
    (effectOf s i).cipher = s.cipher ∧ (effectOf s i).keyv = s.keyv := by
  cases i
  case keyinit | cleanup => simp at h
  case ecbenc | ecbdec | cbcenc | cbcdec => exact ⟨bulkEffect_cipher _ s, bulkEffect_keyv _ s⟩
  case hexenc => exact ⟨hexEncodeEffect_cipher s, hexEncodeEffect_keyv s⟩
  case hexdec => exact ⟨hexDecodeEffect_cipher s, hexDecodeEffect_keyv s⟩
  all_goals exact ⟨rfl, rfl⟩

theorem effectOf_iv {i : Instr} (s : State) (h : i ∉ [Instr.keyinit, .cleanup, .setiv, .cbcenc, .cbcdec]) :
    (effectOf s i).iv = s.iv := by
  cases i
  case keyinit | cleanup | setiv | cbcenc | cbcdec => simp at h
  case ecbenc | ecbdec => exact blockLoop_ecb_iv _ _ _ _ s
  case hexenc => exact hexEncodeEffect_iv s
  case hexdec => exact hexDecodeEffect_iv s
  all_goals rfl

theorem effectOf_buf {i : Instr} (s : State)
    (h : i ∈ [Instr.keyinit, .cleanup, .encb, .decb, .setiv, .getiv, .ld32, .ld64]) :
    (effectOf s i).buf = s.buf := by
  cases i
  case st32 | st64 | ecbenc | ecbdec | cbcenc | cbcdec | hexenc | hexdec => simp at h
  case keyinit => exact loadSchedule_buf s _
  all_goals rfl

/-- R32: the commands that answer in RHI and RLO. -/
theorem effectOf_regs_result {i : Instr} (s : State) (h : i ∈ [Instr.encb, .decb, .getiv, .ld32, .ld64]) :
    (effectOf s i).regs = { s.regs with rhi := (effectOf s i).regs.rhi, rlo := (effectOf s i).regs.rlo } := by
  cases i
  case encb | decb | getiv | ld32 | ld64 => rfl
  all_goals simp at h

/-- R33: the commands that answer in COUNT. -/
theorem effectOf_regs_count {i : Instr} (s : State)
    (h : i ∈ [Instr.ecbenc, .ecbdec, .cbcenc, .cbcdec, .hexenc, .hexdec]) :
    (effectOf s i).regs = { s.regs with count := (effectOf s i).regs.count } := by
  cases i
  case ecbenc | ecbdec | cbcenc | cbcdec => exact congrArg State.regs (bulkEffect_frame _ s)
  case hexenc => exact congrArg State.regs (hexEncodeEffect_frame s)
  case hexdec => exact congrArg State.regs (hexDecodeEffect_frame s)
  all_goals simp at h

/-- The commands that answer in no register. -/
theorem effectOf_regs_same {i : Instr} (s : State) (h : i ∈ [Instr.keyinit, .setiv, .st32, .st64]) :
    (effectOf s i).regs = s.regs := by
  cases i
  case keyinit => exact loadSchedule_regs s _
  case setiv | st32 | st64 => rfl
  all_goals simp at h

/-! ## Commands -/

section
variable {i : Instr} {s t : State} (h : exec i s = .next t)
include h

/-- R21, R22, R24: only KEYINIT and CLEANUP write P, S and KEYV. -/
theorem exec_tables (hi : i ∉ [Instr.keyinit, .cleanup]) : t.cipher = s.cipher ∧ t.keyv = s.keyv :=
  exec_induction (motive := fun t => t.cipher = s.cipher ∧ t.keyv = s.keyv) h (fun _ => ⟨rfl, rfl⟩)
    fun _ => effectOf_tables s hi

/-- R23: the commands that leave IV alone. -/
theorem exec_iv (hi : i ∉ [Instr.keyinit, .cleanup, .setiv, .cbcenc, .cbcdec]) : t.iv = s.iv :=
  exec_induction (motive := fun t => t.iv = s.iv) h (fun _ => rfl) fun _ => effectOf_iv s hi

theorem exec_buf (hi : i ∈ [Instr.keyinit, .cleanup, .encb, .decb, .setiv, .getiv, .ld32, .ld64]) :
    t.buf = s.buf :=
  exec_induction (motive := fun t => t.buf = s.buf) h (fun _ => rfl) fun _ => effectOf_buf s hi

theorem exec_regs_result (hi : i ∈ [Instr.encb, .decb, .getiv, .ld32, .ld64]) :
    t.regs = { s.regs with rhi := t.regs.rhi, rlo := t.regs.rlo } :=
  exec_induction (motive := fun t => t.regs = { s.regs with rhi := t.regs.rhi, rlo := t.regs.rlo }) h
    (fun _ => rfl) fun _ => effectOf_regs_result s hi

theorem exec_regs_count (hi : i ∈ [Instr.ecbenc, .ecbdec, .cbcenc, .cbcdec, .hexenc, .hexdec]) :
    t.regs = { s.regs with count := t.regs.count } :=
  exec_induction (motive := fun t => t.regs = { s.regs with count := t.regs.count }) h
    (fun _ => rfl) fun _ => effectOf_regs_count s hi

theorem exec_regs_same (hi : i ∈ [Instr.keyinit, .setiv, .st32, .st64]) : t.regs = s.regs :=
  exec_induction (motive := fun t => t.regs = s.regs) h (fun _ => rfl) fun _ => effectOf_regs_same s hi

/-- R217: a command that changes the latch changes nothing else. -/
theorem exec_latch_only : t.latch = s.latch ∨ t = { s with latch := t.latch } := by
  obtain e | ⟨_, _, _, rfl⟩ := exec_latch h
  · exact .inl e
  · exact .inr rfl

end

end Sys2Proof.Machine
end

section
/-! PROOF. Every step keeps the invariant: each clause is kept by a command's effect, by its fault entry and by
every operation of the host, and the reset state meets it. -/

namespace Sys2Proof.Machine

open Sys2Proof.Claims

/-! ## BUF's list: the checks keep every store inside BUF -/

/-- The destination range of a bulk block command is in bounds once its checks hold (42_ecb_core.md R138). -/
theorem bulkChecks_dst {s : State} (h : ∀ c ∈ bulkChecks s, c.1 = true) :
    dstOffset s + roundedLength s ≤ s.plat.bufBytes := by
  have hr := h _ (List.mem_cons_of_mem _ List.mem_cons_self)
  exact (inBounds_iff s _ _).1 (Bool.and_eq_true_iff.1 hr).2

theorem bufGood_bulkEffect {s : State} (mode : DWord → DWord → DWord × DWord)
    (h : ∀ c ∈ bulkChecks s, c.1 = true) (hg : bufGood s) : bufGood (bulkEffect mode s) :=
  bufGood_congr rfl rfl <| bufGood_blockLoop mode (by rw [roundedLength_blocks]; exact bulkChecks_dst h) hg

/-- A command whose checks hold stores inside BUF only. -/
theorem bufGood_effectOf {i : Instr} {s : State} (h : ∀ c ∈ checksOf s i, c.1 = true) (hg : bufGood s) :
    bufGood (effectOf s i) := by
  cases i
  case ecbenc | ecbdec | cbcenc | cbcdec => exact bufGood_bulkEffect _ h hg
  case st32 => exact bufGood_write32 _ (by simpa [checksOf, inBounds_iff] using h) hg
  case st64 => exact bufGood_write64 _ (by simpa [checksOf, inBounds_iff] using h) hg
  case hexenc =>
    simp only [checksOf, List.mem_singleton, forall_eq, Bool.and_eq_true, inBounds_iff] at h
    exact bufGood_congr rfl rfl (bufGood_hexEncodeLoop h.2 hg)
  case hexdec =>
    simp only [checksOf, List.mem_singleton, forall_eq, Bool.and_eq_true, inBounds_iff] at h
    exact bufGood_congr rfl rfl (bufGood_hexDecodeLoop h.2 hg)
  case keyinit => exact bufGood_congr (loadSchedule_buf s _) (loadSchedule_plat s _) hg
  all_goals exact bufGood_congr rfl rfl hg

/-! ## The fault latch: a command records its own word with a code it may raise -/

theorem decode_encode (i : Instr) : decode (encode i) = .ok i := by cases i <;> rfl

theorem checksOf_mayRaise {s : State} {i : Instr} {e : FaultCode}
    (h : firstFailure (checksOf s i) = some e) : e ∈ mayRaise i := by
  have := firstFailure_mayRaise h
  cases i <;> exact this

theorem recordedOk_command {i : Instr} {e : FaultCode} (h : e ∈ mayRaise i) :
    recordedOk (encode i) (ecodeOf e) = true := by
  simp only [recordedOk, decode_encode, List.any_eq_true]
  exact ⟨e, h, beq_self_eq_true _⟩

theorem recordedOk_illegal {w : Word} {r : DecodeReject} (h : decode w = .error r) :
    recordedOk w (ecodeOf .illegalCommand) = true := by
  simp only [recordedOk, h, beq_self_eq_true]

/-- A latch that holds a recorded word with its code is consistent. -/
theorem consistent_raiseFault {e : FaultCode} {w : Word} (s : State) (h : recordedOk w (ecodeOf e) = true) :
    (raiseFault e w s).latch.consistent = true := by
  simp only [raiseFault_latch, Latch.consistent, if_true, h]

theorem consistent_exec {i : Instr} {s t : State} (h : exec i s = .next t) (hl : s.latch.consistent = true) :
    t.latch.consistent = true := by
  obtain e | ⟨c, _, hc, rfl⟩ := exec_latch h
  · rw [e]; exact hl
  · exact consistent_raiseFault s (recordedOk_command (checksOf_mayRaise hc))

/-! ## P and S: a schedule is loaded with KEYV <- 1, and zeroed with KEYV <- 0 -/

theorem tablesMatchKeyv_zero {s : State} (hk : s.keyv = false) (hc : s.cipher = Cipher.zero) :
    tablesMatchKeyv s := by
  simp only [tablesMatchKeyv, hk, Bool.false_eq_true, if_false, hc]

theorem tablesMatchKeyv_effectOf {i : Instr} {s : State} (h : ∀ c ∈ checksOf s i, c.1 = true)
    (ht : tablesMatchKeyv s) : tablesMatchKeyv (effectOf s i) := by
  by_cases hi : i ∈ [Instr.keyinit, .cleanup]
  · simp only [List.mem_cons, List.not_mem_nil, or_false] at hi
    obtain rfl | rfl := hi
    · exact tablesMatchKeyv_keyinit (h (keyLengthOk s, .invalidKeyLength) List.mem_cons_self)
    · exact tablesMatchKeyv_zero rfl rfl
  · obtain ⟨hc, hk⟩ := effectOf_tables s hi
    exact tablesMatchKeyv_congr hk hc ht

/-! ## The invariant as a whole -/

theorem State.Inv.bufGood {s : State} (h : s.Inv) : bufGood s := ⟨h.bufCanonical, h.bufInside⟩

/-- An update that leaves the platform, the latch, P, S and KEYV alone keeps the invariant if it keeps BUF's list
and the duty. -/
theorem State.Inv.of_frame {s t : State} (h : s.Inv) (hp : t.plat = s.plat) (hl : t.latch = s.latch)
    (hc : t.cipher = s.cipher) (hk : t.keyv = s.keyv) (hg : Machine.bufGood t)
    (hd : t.busy = true → t.host.mustPoll = true) : t.Inv where
  platform := by rw [hp]; exact h.platform
  bufCanonical := hg.1
  bufInside := hg.2
  latchOk := by rw [hl]; exact h.latchOk
  tables := tablesMatchKeyv_congr hk hc h.tables
  duty := hd

/-- A command, and the end of its step, keep the invariant. -/
theorem inv_exec {i : Instr} {s t : State} (h : exec i s = .next t) (hs : s.Inv) : (clearBusy t).Inv := by
  have hg : bufGood t := exec_induction (motive := bufGood) h (fun _ => hs.bufGood)
    fun hc => bufGood_effectOf hc hs.bufGood
  have ht : tablesMatchKeyv t := exec_induction (motive := tablesMatchKeyv) h (fun _ => hs.tables)
    fun hc => tablesMatchKeyv_effectOf hc hs.tables
  exact {
    platform := by rw [clearBusy_plat, exec_plat h]; exact hs.platform
    bufCanonical := hg.1
    bufInside := hg.2
    latchOk := by rw [clearBusy_latch]; exact consistent_exec h hs.latchOk
    tables := ht
    duty := fun hb => Bool.noConfusion hb }

/-- An illegal word, ignored or recorded, keeps the invariant. -/
theorem inv_runIllegal {s : State} {r : DecodeReject} (h : decode s.cmd = .error r) (hs : s.Inv) :
    (clearBusy (runIllegal s.cmd s)).Inv := by
  obtain ⟨_, e⟩ | ⟨_, e⟩ := runIllegal_cases s.cmd s <;> rw [e]
  · exact hs.of_frame rfl rfl rfl rfl hs.bufGood fun hb => Bool.noConfusion hb
  · exact { hs with
      latchOk := consistent_raiseFault s (recordedOk_illegal h)
      duty := fun hb => Bool.noConfusion hb }

theorem inv_engineTurn {s t : State} (h : engineTurn s = .next t) (hs : s.Inv) : t.Inv := by
  obtain ⟨i, u, _, he, e⟩ | ⟨⟨r, hd⟩, e⟩ := engineTurn_cases s <;> rw [e] at h <;> cases h
  · exact inv_exec he hs
  · exact inv_runIllegal hd hs

/-- The reset event leaves a state that meets the invariant whatever the latch and the tables held (R41). -/
theorem inv_takeReset {s : State} (hp : s.plat.wellFormed = true) : (takeReset s).Inv where
  platform := hp
  bufCanonical := Memory.wf_nil
  bufInside := rfl
  latchOk := rfl
  tables := tablesMatchKeyv_zero rfl rfl
  duty := fun hb => Bool.noConfusion hb

theorem inv_advance {s : State} (hs : s.Inv) : (advance s).Inv := { hs with }

theorem inv_writeReg (r : Reg) (v : Word) {s : State} (hs : s.Inv) : (writeReg r v s).Inv := by
  cases r
  case cmd => exact hs.of_frame rfl rfl rfl rfl hs.bufGood fun _ => rfl
  all_goals exact { hs with }

/-- Reading STATUS ends the duty only when BUSY = 0 (70_reset_and_hazards.md R244). -/
theorem inv_hostReadReg (r : Reg) {s : State} (hs : s.Inv) : (hostReadReg r s).Inv := by
  cases r
  case status =>
    refine hs.of_frame rfl rfl rfl rfl hs.bufGood fun (hb : s.busy = true) => ?_
    simp only [hostReadReg, readReg, noteStatus_host, record_host, showsBusy_statusWord, hb, hs.duty hb, Bool.and_self]
  all_goals exact { hs with }

theorem inv_pollStatus {s : State} (hs : s.Inv) : (pollStatus s).Inv := by
  simp only [pollStatus]
  split_ifs
  · exact inv_hostReadReg .status hs
  · exact inv_advance (inv_hostReadReg .status hs)

theorem inv_opDone {s t : State} {op : HostOp} (h : OpDone s op t) (hs : s.Inv) : t.Inv := by
  cases h with
  | wrote r v _ => exact inv_advance (inv_writeReg r v hs)
  | hasRead r _ => exact inv_advance (inv_hostReadReg r hs)
  | wroteByte a off b _ hb =>
    have hg := bufGood_writeByte b (busTarget_buffer hb) hs.bufGood
    exact inv_advance (hs.of_frame rfl rfl rfl rfl hg hs.duty)
  | hasReadByte => exact { hs with }
  | polled => exact inv_pollStatus hs
  | wasReset => exact inv_advance (inv_takeReset hs.platform)

theorem inv_waited {s : State} (hs : s.Inv) : (waited s).Inv := by rw [waited_frame]; exact { hs with }

/-- Settles O6: the engine's turn, a pause and every operation of the host keep each clause. -/
theorem everyStepKeepsTheInvariant : Obligations.EveryStepKeepsTheInvariant := by
  unfold Obligations.EveryStepKeepsTheInvariant
  intro s t hs h
  obtain ⟨_, he⟩ | ⟨_, _, rfl⟩ | ⟨op, _, _, hd⟩ := step_cases h
  · exact inv_engineTurn he hs
  · exact inv_waited hs
  · exact inv_opDone hd (inv_waited hs)

/-- Settles O5: an example platform R7 allows, nothing written, no fault, no key and nothing pending. -/
theorem invariantHoldsAtReset : Obligations.InvariantHoldsAtReset where
  platform := by decide
  bufCanonical := Memory.wf_nil
  bufInside := rfl
  latchOk := rfl
  tables := tablesMatchKeyv_zero rfl rfl
  duty := fun hb => Bool.noConfusion hb

end Sys2Proof.Machine
end

section
/-! PROOF. The frames of the commands: the registers they write (10_state.md R30 to R33), what the commands that
store nothing leave alone, and the bytes the storing commands leave alone. -/

namespace Sys2Proof.Machine

open Sys2Proof.Claims

/-- R32, R33: a command answers in no register, in RHI and RLO, or in COUNT, or it is CLEANUP. -/
theorem registers_written (i : Instr) :
    i ∈ [Instr.keyinit, .setiv, .st32, .st64] ∨ i ∈ [Instr.encb, .decb, .getiv, .ld32, .ld64]
      ∨ i ∈ [Instr.ecbenc, .ecbdec, .cbcenc, .cbcdec, .hexenc, .hexdec] ∨ i = .cleanup := by
  cases i <;> decide

/-- Settles O11, by where the command answers. -/
theorem commandsWriteOnlyTheirRegisters : Obligations.CommandsWriteOnlyTheirRegisters := by
  unfold Obligations.CommandsWriteOnlyTheirRegisters
  intro i s t h
  obtain hi | hi | hi | rfl := registers_written i
  · rw [exec_regs_same h hi]
    exact ⟨⟨rfl, rfl, rfl⟩, fun _ => ⟨rfl, rfl⟩, fun _ => ⟨rfl, rfl⟩, fun _ => rfl⟩
  · rw [exec_regs_result h hi]
    exact ⟨⟨rfl, rfl, rfl⟩, fun _ => ⟨rfl, rfl⟩,
      fun hn => absurd (List.mem_append_left [Instr.cleanup] hi) hn, fun _ => rfl⟩
  · rw [exec_regs_count h hi]
    exact ⟨⟨rfl, rfl, rfl⟩, fun _ => ⟨rfl, rfl⟩, fun _ => ⟨rfl, rfl⟩, fun hn => absurd hi hn⟩
  · cases h
    exact ⟨⟨rfl, rfl, rfl⟩, fun hn => absurd rfl hn, fun hn => absurd (by decide) hn, fun _ => rfl⟩

/-- Settles O59: BUF stays as it is, and each other part by the lemma for it. -/
theorem frameOfCommandsThatStoreNothing : Obligations.FrameOfCommandsThatStoreNothing := by
  unfold Obligations.FrameOfCommandsThatStoreNothing
  intro i s t hi h
  have hbuf := exec_buf h hi
  refine ⟨fun a => readByte_congr hbuf (exec_epoch h) a, fun hn => exec_tables h hn, fun hn => exec_iv h ?_,
    fun hr => exec_regs_same h ?_, fun hr => exec_regs_result h hr, ?_, exec_latch_only h, ?_⟩
  · revert hi hn; cases i <;> decide
  · exact List.mem_append_left [.st32, .st64] hr
  · rintro rfl; cases h; rfl
  · rw [← hbuf]; exact exec_frame h

/-! ## Bytes the storing commands leave alone -/

theorem readByte_bulkEffect_outside (mode : DWord → DWord → DWord × DWord) {s : State} {a : Nat}
    (h : a < dstOffset s ∨ dstOffset s + roundedLength s ≤ a) : readByte (bulkEffect mode s) a = readByte s a := by
  rw [bulkEffect, readByte_setCount]
  exact readByte_blockLoop_outside mode _ _ _ a s (by rwa [roundedLength_blocks])

/-- COUNT holds the number of bytes HEXDEC wrote: LEN/2 at most, so the register takes it whole. -/
theorem hexDecodeEffect_count (s : State) :
    (hexDecodeEffect s).regs.count.toNat
      = (hexDecodeLoop (pairCount s) (srcOffset s) (dstOffset s) s).1 := by
  have hc := hexDecodeLoop_count (pairCount s) (srcOffset s) (dstOffset s) s
  have hp : pairCount s < 2 ^ 32 := (Nat.div_le_self _ 2).trans_lt s.regs.len.isLt
  simp only [hexDecodeEffect, setCount_regs, BitVec.toNat_ofNat]
  exact Nat.mod_eq_of_lt (hc.trans_lt hp)

theorem readByte_effectOf_outside {i : Instr} {s : State} {a : Nat}
    (hi : i ∈ [Instr.st32, .st64, .ecbenc, .ecbdec, .cbcenc, .cbcdec, .hexenc, .hexdec])
    (h : a < dst s ∨ dst s + storedBytes i s (effectOf s i) ≤ a) :
    readByte (effectOf s i) a = readByte s a := by
  have hd : dst s = dstOffset s := rfl
  rw [hd] at h
  cases i
  case ecbenc | ecbdec | cbcenc | cbcdec => exact readByte_bulkEffect_outside _ h
  case st32 =>
    simp only [storedBytes] at h
    rw [effectOf, readByte_write32, if_neg (by omega)]
  case st64 => exact readByte_write64_outside s _ a _ h
  case hexenc => exact readByte_hexEncodeLoop_outside _ _ _ a s h
  case hexdec =>
    simp only [storedBytes, effectOf, hexDecodeEffect_count] at h
    exact readByte_hexDecodeLoop_outside _ _ _ a s h
  all_goals simp at hi

theorem exec_readByte_outside {i : Instr} {s t : State} (h : exec i s = .next t)
    (hi : i ∈ [Instr.st32, .st64, .ecbenc, .ecbdec, .cbcenc, .cbcdec, .hexenc, .hexdec]) (a : Nat) :
    (a < dst s ∨ dst s + storedBytes i s t ≤ a) → readByte t a = readByte s a :=
  exec_induction (motive := fun t => (a < dst s ∨ dst s + storedBytes i s t ≤ a) → readByte t a = readByte s a) h
    (fun _ _ => rfl) fun _ => readByte_effectOf_outside hi

/-- A storing command writes no register but COUNT. -/
theorem exec_regs_storing {i : Instr} {s t : State} (h : exec i s = .next t)
    (hi : i ∈ [Instr.st32, .st64, .ecbenc, .ecbdec, .cbcenc, .cbcdec, .hexenc, .hexdec]) :
    t.regs = { s.regs with count := t.regs.count } := by
  obtain hs | hc : i ∈ [Instr.st32, .st64] ∨ i ∈ [Instr.ecbenc, .ecbdec, .cbcenc, .cbcdec, .hexenc, .hexdec] :=
    List.mem_append.1 hi
  · rw [exec_regs_same h (List.mem_append_right [Instr.keyinit, .setiv] hs)]
  · exact exec_regs_count h hc

/-- Settles O60: the bytes outside the stored range by each loop's own frame, each other part by the lemma for
it. -/
theorem frameOfStoringCommands : Obligations.FrameOfStoringCommands := by
  unfold Obligations.FrameOfStoringCommands
  intro i s t hi h
  have hkey : i ∉ [Instr.keyinit, .cleanup] := by revert hi; cases i <;> decide
  obtain ⟨hc, hk⟩ := exec_tables h hkey
  refine ⟨exec_readByte_outside h hi, fun hn => exec_iv h ?_, fun hr => exec_regs_same h ?_, exec_latch_only h, ?_⟩
  · revert hi hn; cases i <;> decide
  · exact List.mem_append_right [.keyinit, .setiv] hr
  · rw [← hc, ← hk, ← exec_regs_storing h hi]; exact exec_frame h

end Sys2Proof.Machine
end

section
/-! PROOF. What a whole step can write: P and S by KEYINIT, CLEANUP and reset only, the fault latch's end by reset
only (10_state.md R21, R22, R25, R41). -/

namespace Sys2Proof.Machine

open Sys2Proof.Claims

/-- The engine writes P and S only for the words of KEYINIT and CLEANUP (30_encoding.md R73). -/
theorem engineTurn_cipher {s t : State} (h : engineTurn s = .next t) :
    t.cipher = s.cipher ∨ s.cmd = 0x00000001 ∨ s.cmd = 0x00000002 := by
  obtain ⟨i, u, hd, he, e⟩ | ⟨_, e⟩ := engineTurn_cases s <;> rw [e] at h <;> cases h
  · by_cases hi : i ∈ [Instr.keyinit, .cleanup]
    · simp only [List.mem_cons, List.not_mem_nil, or_false] at hi
      obtain rfl | rfl := hi
      · exact .inr (.inl (decode_ok hd))
      · exact .inr (.inr (decode_ok hd))
    · exact .inl (exec_tables he hi).1
  · obtain ⟨_, e⟩ | ⟨_, e⟩ := runIllegal_cases s.cmd s <;> rw [e] <;> exact .inl rfl

/-- The engine leaves a set fault latch as it is (60_exceptions.md R219). -/
theorem engineTurn_latch {s t : State} (h : engineTurn s = .next t) (hf : s.latch.fault = true) :
    t.latch = s.latch := by
  obtain ⟨i, u, _, he, e⟩ | ⟨_, e⟩ := engineTurn_cases s <;> rw [e] at h <;> cases h
  · obtain e | ⟨_, hn, _, _⟩ := exec_latch he
    · exact e
    · rw [hf] at hn; cases hn
  · obtain ⟨_, e⟩ | ⟨hn, _⟩ := runIllegal_cases s.cmd s
    · rw [e]; rfl
    · rw [hf] at hn; cases hn

/-- Settles O19: the engine's turn and the reset are the only writers. -/
theorem onlyKeyCommandsAndResetWriteTables : Obligations.OnlyKeyCommandsAndResetWriteTables := by
  unfold Obligations.OnlyKeyCommandsAndResetWriteTables
  intro s t h hne
  obtain ⟨hm, he⟩ | ⟨_, _, rfl⟩ | ⟨op, hm, ho, hd⟩ := step_cases h
  · exact .inl ⟨(enginePending_iff s).2 hm, (engineTurn_cipher he).resolve_left hne⟩
  · exact absurd (waited_cipher s) hne
  · by_cases hr : op = .resetSignal
    · subst hr; exact .inr ⟨not_enginePending hm, ho⟩
    · rw [opDone_frame hd hr] at hne; exact absurd (waited_cipher s) hne

/-- Settles O20: a set latch is kept by the engine and by every operation but the reset, which clears it. -/
theorem onlyResetClearsTheFaultLatch : Obligations.OnlyResetClearsTheFaultLatch := by
  unfold Obligations.OnlyResetClearsTheFaultLatch
  intro s t h hf
  obtain ⟨_, he⟩ | ⟨_, _, rfl⟩ | ⟨op, hm, ho, hd⟩ := step_cases h
  · exact .inl (engineTurn_latch he hf)
  · exact .inl (waited_latch s)
  · by_cases hr : op = .resetSignal
    · subst hr; cases hd
      exact .inr ⟨not_enginePending hm, ho, rfl⟩
    · rw [opDone_frame hd hr]; exact .inl (waited_latch s)

end Sys2Proof.Machine
end

section
/-! PROOF. With KEYV = 0 the tables cannot be observed (10_state.md R24, R41): a step from other tables gives the
same next state with other tables, or the same next state. -/

namespace Sys2Proof.Machine

/-- The machine with other tables in place of P and S. -/
def withTables (c : Cipher) (s : State) : State := { s with cipher := c }

/-- `t'` is `t` but for P and S. -/
def sameButTables (t' t : State) : Prop := { t' with cipher := t.cipher } = t

theorem sameButTables_refl (t : State) : sameButTables t t := rfl

theorem sameButTables_withTables (c : Cipher) (t : State) : sameButTables (withTables c t) t := rfl

theorem sameButTables_clearBusy {t' t : State} (h : sameButTables t' t) :
    sameButTables (clearBusy t') (clearBusy t) :=
  congrArg clearBusy h

/-! ## What the tables do not reach -/

@[simp] theorem withTables_busy (c : Cipher) (s : State) : (withTables c s).busy = s.busy := rfl
@[simp] theorem withTables_latch (c : Cipher) (s : State) : (withTables c s).latch = s.latch := rfl

theorem statusWord_withTables (c : Cipher) (s : State) : statusWord (withTables c s) = statusWord s := rfl

theorem readByte_withTables (c : Cipher) (s : State) (a : Nat) : readByte (withTables c s) a = readByte s a := rfl

theorem keyBytes_withTables (c : Cipher) (s : State) : keyBytes (withTables c s) = keyBytes s := by
  simp only [keyBytes, readBytes_eq_map, readByte_withTables]
  rfl

theorem checksOf_withTables (c : Cipher) (s : State) (i : Instr) : checksOf (withTables c s) i = checksOf s i := by
  cases i <;> rfl

theorem hexEncodeLoop_withTables (c : Cipher) (m src dst : Nat) (s : State) :
    hexEncodeLoop m src dst (withTables c s) = withTables c (hexEncodeLoop m src dst s) := by
  induction m with
  | zero => rfl
  | succ m ih => rw [hexEncodeLoop_snoc, hexEncodeLoop_snoc, ih]; rfl

theorem hexDecodeTurn_withTables (c : Cipher) (src dst n : Nat) (s : State) :
    hexDecodeTurn src dst (n, withTables c s)
      = ((hexDecodeTurn src dst (n, s)).1, withTables c (hexDecodeTurn src dst (n, s)).2) := by
  simp only [hexDecodeTurn, readByte_withTables]
  cases hexPair (readByte s src) (readByte s (src + 1)) <;> rfl

theorem hexDecodeLoop_withTables (c : Cipher) (p src dst : Nat) (s : State) :
    hexDecodeLoop p src dst (withTables c s)
      = ((hexDecodeLoop p src dst s).1, withTables c (hexDecodeLoop p src dst s).2) := by
  induction p with
  | zero => rfl
  | succ p ih => rw [hexDecodeLoop_snoc, hexDecodeLoop_snoc, ih, hexDecodeTurn_withTables]

/-- The effect of a command that may run with KEYV = 0: the schedule KEYINIT loads and the zeros of CLEANUP do not
depend on the tables before, and the others do not read them. -/
theorem effectOf_withTables (c : Cipher) {s : State} {i : Instr} (hk : s.keyv = false)
    (h : ∀ k ∈ checksOf s i, k.1 = true) : sameButTables (effectOf (withTables c s) i) (effectOf s i) := by
  cases i
  case encb | decb | ecbenc | ecbdec | cbcenc | cbcdec =>
    exact absurd (hk.symm.trans (h (s.keyv, .noKey) List.mem_cons_self)) Bool.false_ne_true
  case keyinit =>
    simp only [effectOf, keyinitEffect, keyBytes_withTables]
    exact sameButTables_refl (loadSchedule _ s)
  case hexenc =>
    simp only [effectOf, hexEncodeEffect]
    rw [hexEncodeLoop_withTables]
    exact sameButTables_withTables c (hexEncodeEffect s)
  case hexdec =>
    simp only [effectOf, hexDecodeEffect]
    rw [hexDecodeLoop_withTables]
    exact sameButTables_withTables c (hexDecodeEffect s)
  all_goals rfl

theorem exec_withTables (c : Cipher) {s t : State} {i : Instr} (hk : s.keyv = false)
    (h : exec i s = .next t) : ∃ t', exec i (withTables c s) = .next t' ∧ sameButTables t' t := by
  obtain ⟨hi, hf, e⟩ | ⟨k, hi, hf, hc, e⟩ | ⟨hi, hc, e⟩ := exec_cases i s <;> rw [e] at h <;> cases h
  · exact ⟨_, exec_ignored (s := withTables c s) hi hf, rfl⟩
  · rw [← checksOf_withTables c] at hc
    exact ⟨_, exec_fails (s := withTables c s) hi hf hc, rfl⟩
  · refine ⟨_, ?_, effectOf_withTables c hk hc⟩
    obtain rfl | hf := hi
    · rfl
    · rw [← checksOf_withTables c] at hc
      exact exec_runs (s := withTables c s) hf hc

theorem runIllegal_withTables (c : Cipher) (w : Word) (s : State) :
    sameButTables (runIllegal w (withTables c s)) (runIllegal w s) := by
  unfold runIllegal
  rw [withTables_latch]
  split_ifs <;> rfl

theorem engineTurn_withTables (c : Cipher) {s t : State} (hk : s.keyv = false) (h : engineTurn s = .next t) :
    ∃ t', engineTurn (withTables c s) = .next t' ∧ sameButTables t' t := by
  obtain ⟨i, u, hd, he, e⟩ | ⟨⟨r, hd⟩, e⟩ := engineTurn_cases s <;> rw [e] at h <;> cases h
  · obtain ⟨u', he', hu⟩ := exec_withTables c hk he
    exact ⟨_, engineTurn_command (s := withTables c s) hd he', sameButTables_clearBusy hu⟩
  · exact ⟨_, engineTurn_illegal (s := withTables c s) hd, sameButTables_clearBusy (runIllegal_withTables c _ s)⟩

/-- No operation of the host reads or writes the tables, the reset apart, which zeroes them. -/
theorem opDone_withTables (c : Cipher) {s t : State} {op : HostOp} (h : OpDone s op t) :
    ∃ t', OpDone (withTables c s) op t' ∧ sameButTables t' t := by
  cases h with
  | wrote r v hf => exact ⟨_, .wrote (s := withTables c s) r v hf, by cases r <;> rfl⟩
  | hasRead r hr => exact ⟨_, .hasRead (s := withTables c s) r hr, by cases r <;> rfl⟩
  | wroteByte a off b hf hb => exact ⟨_, .wroteByte (s := withTables c s) a off b hf hb, rfl⟩
  | hasReadByte a off hf hb => exact ⟨_, .hasReadByte (s := withTables c s) a off hf hb, rfl⟩
  | polled =>
    refine ⟨_, .polled, ?_⟩
    simp only [pollStatus]
    rw [statusWord_withTables]
    split_ifs <;> rfl
  | wasReset => exact ⟨_, .wasReset, rfl⟩

theorem waited_withTables (c : Cipher) (s : State) : waited (withTables c s) = withTables c (waited s) := by
  unfold waited
  rw [withTables_busy]
  split_ifs <;> rfl

/-- Settles O21, by what the step does. -/
theorem tablesWithoutAKeyAreUnobservable : Obligations.TablesWithoutAKeyAreUnobservable := by
  unfold Obligations.TablesWithoutAKeyAreUnobservable
  intro s t c hk h
  change ∃ t', step (withTables c s) = .next t' ∧ sameButTables t' t
  obtain ⟨hm, he⟩ | ⟨hm, ho, rfl⟩ | ⟨op, hm, ho, hd⟩ := step_cases h
  · obtain ⟨hb, hl⟩ := (engineMoves_iff s).1 hm
    rw [step_engine (s := withTables c s) hb hl]
    exact engineTurn_withTables c hk he
  · refine ⟨_, ?_, sameButTables_withTables c _⟩
    rw [step_host (s := withTables c s) (not_enginePending hm), waited_withTables]
    exact hostTurn_none ((nextOp_waited s).trans ho)
  · obtain ⟨t', hd', ht⟩ := opDone_withTables c hd
    rw [← waited_withTables] at hd'
    exact ⟨t', step_of_opDone (s := withTables c s) (not_enginePending hm) ho hd', ht⟩

end Sys2Proof.Machine
end

section
/-! PROOF. The host's accesses to registers and BUF, and STATUS (10_state.md R27 to R36). -/

namespace Sys2Proof.Machine

open Sys2Proof.Claims

/-! ## STATUS -/

/-- R29's fields, read back from the word they are put together to. -/
theorem statusWord_fields (s : State) :
    (statusWord s).getLsbD 0 = s.keyv ∧ (statusWord s).getLsbD 1 = s.latch.fault
      ∧ (statusWord s).extractLsb' 2 2 = 0 ∧ (statusWord s).extractLsb' 4 4 = s.latch.ecode
      ∧ (statusWord s).getLsbD 8 = s.busy ∧ (statusWord s).extractLsb' 9 23 = 0 := by
  have fields : ∀ (b f k : Bool) (e : BitVec 4),
      let w : Word := (0#23 ++ BitVec.ofBool b ++ e ++ 0#2 ++ BitVec.ofBool f ++ BitVec.ofBool k
        : BitVec (23 + 1 + 4 + 2 + 1 + 1))
      w.getLsbD 0 = k ∧ w.getLsbD 1 = f ∧ w.extractLsb' 2 2 = 0 ∧ w.extractLsb' 4 4 = e
        ∧ w.getLsbD 8 = b ∧ w.extractLsb' 9 23 = 0 := by decide
  exact fields s.busy s.latch.fault s.keyv s.latch.ecode

/-- While FAULT = 0 a consistent latch is all zero (10_state.md R25). -/
theorem consistent_ecode {l : Latch} (h : l.consistent = true) (hf : l.fault = false) : l.ecode = 0 := by
  simp only [Latch.consistent, hf, Bool.false_eq_true, if_false, Bool.and_eq_true, beq_iff_eq] at h
  exact h.1

/-- Settles O7, from the fields of the word. -/
theorem statusHasItsFields : Obligations.StatusHasItsFields := by
  unfold Obligations.StatusHasItsFields
  intro s
  obtain ⟨hk, hf, h2, he, hb, h9⟩ := statusWord_fields s
  exact ⟨hk, hf, h2, he, hb, h9, by decide, rfl, fun hl hn => he.trans (consistent_ecode hl hn), fun _ => rfl,
    _, hostReadReg_frame .status s⟩

/-! ## Registers -/

theorem regOffset_aligned (r : Reg) : regOffset r % 4 = 0 ∧ regOffset r ≤ 0x028 := by cases r <;> decide

/-- The window reaches registers, reserved offsets and addresses between words, and nothing else. -/
theorem busTarget_window (p : Platform) {off : Nat} (h : off < 64) :
    (∃ r, busTarget p (p.base + off) = .register r)
      ∨ busTarget p (p.base + off) = .reserved ∨ busTarget p (p.base + off) = .unaligned := by
  unfold busTarget
  rw [if_pos ⟨by omega, Nat.add_lt_add_left h _⟩, Nat.add_sub_cancel_left]
  split_ifs
  · cases regAt off with
    | some r => exact .inl ⟨r, rfl⟩
    | none => exact .inr (.inl rfl)
  · exact .inr (.inr rfl)

/-- An offset that is no word boundary, or past FCMD's, is no register's (10_state.md R35). -/
theorem busTarget_noRegister (p : Platform) {off : Nat} (h : off < 64) (hr : off % 4 ≠ 0 ∨ 0x02C ≤ off) :
    busTarget p (p.base + off) = .reserved ∨ busTarget p (p.base + off) = .unaligned := by
  refine (busTarget_window p h).resolve_left ?_
  rintro ⟨r, hb⟩
  have ho := busTarget_register hb
  have ha := regOffset_aligned r
  omega

theorem busWrite32_refused {s : State} {a : Nat} (v : Word)
    (h : busTarget s.plat a = .reserved ∨ busTarget s.plat a = .unaligned) :
    ∃ q, busWrite32 a v s = .refused q := by
  obtain h | h := h
  · exact ⟨.reservedOffset, by simp only [busWrite32, h]⟩
  · exact ⟨.notAlignedWord, by simp only [busWrite32, h]⟩

theorem busRead32_refused {s : State} {a : Nat}
    (h : busTarget s.plat a = .reserved ∨ busTarget s.plat a = .unaligned) :
    ∃ q, busRead32 a s = .refused q := by
  obtain h | h := h
  · exact ⟨.reservedOffset, by simp only [busRead32, h]⟩
  · exact ⟨.notAlignedWord, by simp only [busRead32, h]⟩

theorem busWrite8_refused (s : State) {off : Nat} (b : Byte) (h : off < 64) :
    ∃ q, busWrite8 (s.plat.base + off) b s = .refused q := by
  obtain ⟨r, h⟩ | h | h := busTarget_window s.plat h
  · exact ⟨.notAlignedWord, by simp only [busWrite8, h]⟩
  · exact ⟨.reservedOffset, by simp only [busWrite8, h]⟩
  · exact ⟨.notAlignedWord, by simp only [busWrite8, h]⟩

theorem busRead8_refused (s : State) {off : Nat} (h : off < 64) :
    ∃ q, busRead8 (s.plat.base + off) s = .refused q := by
  obtain ⟨r, h⟩ | h | h := busTarget_window s.plat h
  · exact ⟨.notAlignedWord, by simp only [busRead8, h]⟩
  · exact ⟨.reservedOffset, by simp only [busRead8, h]⟩
  · exact ⟨.notAlignedWord, by simp only [busRead8, h]⟩

/-- A read by a host under no duty moves the host and records the value, of STATUS too: the duty stays off. -/
theorem advance_hostReadReg {s : State} (hp : s.host.mustPoll = false) (r : Reg) :
    advance (hostReadReg r s)
      = { s with host := { s.host with seen := readReg s r :: s.host.seen, pc := s.host.pc + 1 } } := by
  cases r
  case status => simp only [hostReadReg, noteStatus, record, advance, hp, Bool.false_and]
  all_goals rfl

/-- Settles O8: the accesses that answer are operations done, the others miss the registers. -/
theorem hostAccessesRegistersByAlignedWords : Obligations.HostAccessesRegistersByAlignedWords := by
  unfold Obligations.HostAccessesRegistersByAlignedWords
  intro s hf
  have free := onlyStatus_free hf
  refine ⟨fun r v ho => step_of_opDone_free hf ho (.wrote r v free), fun r ho => ?_, ?_, ?_, ?_,
    rfl, rfl, rfl, rfl, rfl, rfl, rfl, rfl, rfl, rfl, rfl⟩
  · have hd : OpDone s (.r32 (s.plat.base + regOffset r)) (advance (hostReadReg r s)) :=
      .hasRead r fun hn => absurd hn (by rw [free]; exact Bool.false_ne_true)
    rw [step_of_opDone_free hf ho hd, advance_hostReadReg hf.2]
    exact ⟨rfl, rfl⟩
  · intro r hr v
    cases r
    case status | rhi | rlo | count | fcmd => rfl
    all_goals simp at hr
  · intro off v h hr op hop ho
    have hb := busTarget_noRegister s.plat h hr
    rw [step_op hf.1 ho, performOp_free free]
    simp only [List.mem_cons, List.not_mem_nil, or_false] at hop
    obtain rfl | rfl := hop
    · exact busWrite32_refused v hb
    · exact busRead32_refused hb
  · intro off b h op hop ho
    rw [step_op hf.1 ho, performOp_free free]
    simp only [List.mem_cons, List.not_mem_nil, or_false] at hop
    obtain rfl | rfl := hop
    · exact busWrite8_refused s b h
    · exact busRead8_refused s h

/-- R30, R31: an operand register takes the value, and no other register changes. -/
theorem readReg_writeReg {r : Reg} (hr : r ∈ [Reg.src, .dst, .len, .dhi, .dlo]) (v : Word) (s : State) (r' : Reg) :
    readReg (writeReg r v s) r' = if r' = r then v else readReg s r' := by
  cases r
  case src | dst | len | dhi | dlo => cases r' <;> rfl
  all_goals simp at hr

theorem writeReg_regs_only {r : Reg} (hr : r ∈ [Reg.src, .dst, .len, .dhi, .dlo]) (v : Word) (s : State) :
    writeReg r v s = { s with regs := (writeReg r v s).regs } := by
  cases r
  case src | dst | len | dhi | dlo => rfl
  all_goals simp at hr

/-- Settles O10: each operand register has a field of its own. -/
theorem operandRegistersReadBack : Obligations.OperandRegistersReadBack := by
  unfold Obligations.OperandRegistersReadBack
  intro s v r hr
  refine ⟨?_, fun r' hne => ?_, writeReg_regs_only hr v s, by decide⟩
  · rw [readReg_writeReg hr, if_pos rfl]
  · rw [readReg_writeReg hr, if_neg hne]

/-! ## BUF -/

/-- Settles O9: on a platform R7 allows BUF_BASE + off reaches byte `off`. -/
theorem hostAccessesBufferByBytes : Obligations.HostAccessesBufferByBytes := by
  unfold Obligations.HostAccessesBufferByBytes
  intro s off hf hp hoff
  have free := onlyStatus_free hf
  have ht := busTarget_bufBase hp hoff
  refine ⟨fun b ho => ⟨_, step_of_opDone_free hf ho (.wroteByte _ off b free ht), ?_, fun a ha => ?_,
    rfl, rfl, rfl, rfl, rfl, rfl⟩,
    fun ho => ⟨_, step_of_opDone_free hf ho (.hasReadByte _ off free ht), rfl, rfl⟩⟩
  · rw [readByte_advance, readByte_writeByte, if_pos rfl]
  · rw [readByte_advance, readByte_writeByte, if_neg ha]

end Sys2Proof.Machine
end

section
/-! PROOF. The start and the end of a command (10_state.md R26, R28), and the reset (R41,
70_reset_and_hazards.md R240). -/

namespace Sys2Proof.Machine

open Sys2Proof.Claims

/-- Settles O12: BASE is CMD's address, and a write there is `writeCmd`. -/
theorem cmdWriteStartsACommand : Obligations.CmdWriteStartsACommand := by
  unfold Obligations.CmdWriteStartsACommand
  intro s w hf ho
  exact ⟨rfl, _, step_of_opDone_free hf ho (.wrote .cmd w (onlyStatus_free hf)),
    rfl, rfl, rfl, rfl, rfl, rfl, rfl, rfl, rfl, rfl, rfl, rfl, rfl⟩

/-- Settles O13: every command answers, and the engine's turn ends it. -/
theorem stepRunsThePendingCommand : Obligations.StepRunsThePendingCommand := by
  unfold Obligations.StepRunsThePendingCommand
  intro s i ⟨hb, hl⟩ hd
  obtain ⟨t, ht⟩ := exec_answers i s
  exact ⟨t, ht, (step_engine hb hl).trans (engineTurn_command hd ht)⟩

/-- Every register reads 0 where the latch, the registers, KEYV and BUSY are as after reset. -/
theorem readReg_reset {s : State} (hr : s.regs = Regs.zero) (hl : s.latch = Latch.clear) (hk : s.keyv = false)
    (hb : s.busy = false) (r : Reg) : readReg s r = 0 := by
  cases r
  case cmd => rfl
  case status => simp only [readReg, statusWord, hl, hk, hb]; decide
  case fcmd => simp only [readReg, hl]; rfl
  all_goals simp only [readReg, hr]; rfl

/-- A byte of BUF nothing has written since the last reset is the free value of its cell (log 2). -/
theorem readByte_unwritten {s : State} (h : s.buf = []) (a : Nat) : readByte s a = Config.freeByte s.epoch a := by
  simp only [readByte, h, Memory.read, Memory.unlisted]

/-- Settles O17: the next operation is the reset event, and it is done. -/
theorem resetClearsEveryElement : Obligations.ResetClearsEveryElement := by
  unfold Obligations.ResetClearsEveryElement
  intro s hm ho
  obtain ⟨hp, hs⟩ := Cipher.zero_entries
  refine ⟨_, step_of_opDone hm ho .wasReset, hp, hs, rfl, rfl, rfl, rfl, readReg_reset rfl rfl rfl rfl, fun a => ?_,
    waited_plat s, ?_, ?_⟩
  · rw [readByte_unwritten rfl, advance_epoch, takeReset_epoch, waited_epoch]
  · simp only [advance_host, takeReset_host, waited_host]
  · simp only [advance_host, takeReset_host, waited_host]

/-- Settles O18, field by field. -/
theorem resetStateIsAllZero : Obligations.ResetStateIsAllZero := by
  unfold Obligations.ResetStateIsAllZero
  obtain ⟨hp, hs⟩ := Cipher.zero_entries
  exact ⟨hp, hs, rfl, rfl, rfl, rfl, readReg_reset rfl rfl rfl rfl, readByte_unwritten rfl⟩

end Sys2Proof.Machine
end

section
/-! PROOF. The ECB commands on ranges in place or apart (20_memory.md R66, 70_reset_and_hazards.md R248). -/

namespace Sys2Proof.Machine

open Sys2Proof.Claims

/-- A bulk block command with a key and both ranges in bounds has its effect (42_ecb_core.md R137). -/
theorem exec_bulk_runs {i : Instr} {s : State} (hi : i ∈ [Instr.ecbenc, .ecbdec, .cbcenc, .cbcdec])
    (hf : s.latch.fault = false) (hk : s.keyv = true) (hs : src s + wholeBytes s ≤ s.plat.bufBytes)
    (hd : dst s + wholeBytes s ≤ s.plat.bufBytes) : exec i s = .next (effectOf s i) := by
  refine exec_runs hf ?_
  cases i
  case ecbenc | ecbdec | cbcenc | cbcdec => exact bulkChecks_hold hk hs hd
  all_goals simp at hi

/-- Block `b` of an ECB command's destination: the block of the source as it stood before the command, changed. -/
theorem read64_bulkEffect_ecb (f : DWord → DWord) {s : State} {b : Nat} (hb : 8 * b < wholeBytes s)
    (h : inPlaceOrApart (src s) (dst s) (wholeBytes s)) :
    read64 (bulkEffect (fun iv x => (f x, iv)) s) (dst s + 8 * b) = f (read64 s (src s + 8 * b)) := by
  have hn : 8 * (roundedLength s / Config.blockBytes) = wholeBytes s := roundedLength_blocks s
  rw [bulkEffect, read64_setCount]
  refine read64_blockLoop_ecb f s (by omega) ?_
  rw [hn]
  exact h

/-- Settles O40: both commands run the ECB loop, each with its own block function. -/
theorem ecbInPlaceAndApartGiveTheSameBlocks : Obligations.EcbInPlaceAndApartGiveTheSameBlocks := by
  unfold Obligations.EcbInPlaceAndApartGiveTheSameBlocks
  intro s hf hk hs hd hr
  exact ⟨⟨_, exec_bulk_runs (by decide) hf hk hs hd, fun _ hb => read64_bulkEffect_ecb (encrypt64 s.cipher) hb hr⟩,
    ⟨_, exec_bulk_runs (by decide) hf hk hs hd, fun _ hb => read64_bulkEffect_ecb (decrypt64 s.cipher) hb hr⟩⟩

end Sys2Proof.Machine
end

section
/-! PROOF. The command word and the assembler (30_encoding.md): a word decodes to a command iff it is the command's
word, and that iff the table of R73 lists it; lines and pseudo-instructions as bus operations (R76, R77). -/

namespace Sys2Proof.Machine

open Sys2Proof.Claims

/-! ## The command word -/

/-- A command's word is its number zero-extended, so nothing stands in RSV. -/
theorem rsvField_encode (i : Instr) : rsvField (encode i) = 0 := by
  ext k hk
  simp [rsvField, encode]

/-- A word decodes to a command iff it is that command's word. -/
theorem decode_eq_ok_iff (w : Word) (i : Instr) : decode w = .ok i ↔ w = encode i :=
  ⟨decode_ok, fun h => h ▸ decode_encode i⟩

/-- On a 32-bit word's number, the decoder that counts bits reads what the decoder of words reads. -/
theorem decodeTableWord_toNat_iff (w : Word) (i : Instr) :
    decodeTableWord 32 w.toNat = some i ↔ decode w = .ok i := by
  have hmod : w.toNat % 2 ^ 32 = w.toNat := Nat.mod_eq_of_lt w.isLt
  rw [decodeTableWord, hmod, if_pos w.isLt, BitVec.ofNat_toNat, BitVec.setWidth_eq]
  cases decode w <;> simp

/-- The table of R73 lists each command once, beside the command's word. -/
theorem mem_listedWords_iff (w : Word) (i : Instr) : (w, i) ∈ listedWords ↔ w = encode i := by
  cases i <;> simp [listedWords, encode, opNumber]

/-- Settles O3: the round trip of the command, read by both decoders, and its converse. -/
theorem decodeAndEncodeAgree : Obligations.DecodeAndEncodeAgree := by
  unfold Obligations.DecodeAndEncodeAgree
  intro i _
  exact ⟨decode_encode i, rsvField_encode i, (decodeTableWord_toNat_iff _ i).2 (decode_encode i),
    fun _ hw => decode_ok hw⟩

/-- Settles O1: decoding to a command and being listed beside it are both being the command's word. -/
theorem wordsDecodeExactlyAsListed : Obligations.WordsDecodeExactlyAsListed := by
  unfold Obligations.WordsDecodeExactlyAsListed
  intro w i
  exact (decode_eq_ok_iff w i).trans (mem_listedWords_iff w i).symm

/-- Settles O2: four of the words are their commands' words, and the decoder refuses the other three by name. -/
theorem sampleWordsDecode : Obligations.SampleWordsDecode := by
  unfold Obligations.SampleWordsDecode
  exact ⟨decode_encode .keyinit, decode_encode .encb, decode_encode .cbcenc, decode_encode .hexdec,
    by decide, by decide, by decide⟩

/-! ## The assembler -/

/-- Settles O4: whatever the platform, the offsets and the values are, the assembler evaluates on lines of a given
shape. -/
theorem linesAssembleToBusOperations : Obligations.LinesAssembleToBusOperations := by
  unfold Obligations.LinesAssembleToBusOperations
  intro p a b0 b1 v
  exact ⟨rfl, rfl, rfl, rfl⟩

end Sys2Proof.Machine
end

section
/-! PROOF. The key schedule, and the commands KEYINIT and CLEANUP (40_key_schedule.md R102 to R107). -/

namespace Sys2Proof.Machine

open Sys2Proof.Claims

/-! ## The schedule -/

/-- The word of step 2 is taken in by every entry of P, and S stays: the mixing loop has run its 18 turns. -/
theorem mixKey_entries (key : List Byte) (c : Cipher) :
    (mixKey key c).s = c.s ∧ ∀ i, pEntry (mixKey key c) i = pEntry c i ^^^ keyWord key i.val := by
  have hall : (List.finRange 18).take 18 = List.finRange 18 := List.take_of_length_le List.length_finRange.le
  obtain ⟨_, hs, hp⟩ := mixEntry_foldl key 18 le_rfl c
  rw [hall] at hs hp
  exact ⟨hs, fun i => (hp i).trans (if_pos i.isLt)⟩

/-- Settles O29, from the mixing loop run to its end. -/
theorem keyIsMixedCyclicallyBigEndian : Obligations.KeyIsMixedCyclicallyBigEndian := by
  unfold Obligations.KeyIsMixedCyclicallyBigEndian
  intro key c i _
  obtain ⟨hs, hp⟩ := mixKey_entries key c
  exact ⟨hp i, hs⟩

/-- The running block before turn `n` of step 3: the zero block, then the pair the turn before wrote. -/
theorem fillTurns_block (c : Cipher) {n : Nat} (hn : n ≤ 521) :
    (fillTurns c n).2 = if n = 0 then (0, 0)
      else (tableEntry (selfEncrypt c) (2 * n - 2), tableEntry (selfEncrypt c) (2 * n - 1)) := by
  cases n with
  | zero => rfl
  | succ n =>
    rw [if_neg n.succ_ne_zero, ← fillTurns_pair c hn]
    rfl

/-- The pair turn `n` of step 3 wrote is the pair before it, encrypted with the tables as they stood (R103). -/
theorem selfEncrypt_pair (c : Cipher) {n : Nat} (hn : n < 521) :
    (tableEntry (selfEncrypt c) (2 * n), tableEntry (selfEncrypt c) (2 * n + 1))
      = encryptBlock (partlyFilled c (selfEncrypt c) (2 * n))
          (if n = 0 then (0, 0)
           else (tableEntry (selfEncrypt c) (2 * n - 2), tableEntry (selfEncrypt c) (2 * n - 1))) := by
  rw [fillTurns_pair c hn, fillTurns_succ, fillTurn_block, fillTurns_tables c hn.le, fillTurns_block c hn.le]

/-- Before turn 0 nothing of step 3 is filled in. -/
theorem partlyFilled_zero (start done : Cipher) : partlyFilled start done 0 = start :=
  Cipher.eq_of_tableEntry fun e he => by rw [tableEntry_partlyFilled _ _ _ he, if_neg (Nat.not_lt_zero e)]

/-- Settles O30: P[0] and P[1] are turn 0's pair, and every pair is its turn's. -/
theorem scheduleStartsWithTheEncryptedZeroBlock : Obligations.ScheduleStartsWithTheEncryptedZeroBlock := by
  unfold Obligations.ScheduleStartsWithTheEncryptedZeroBlock
  intro key
  have hpair := fun n (hn : n < 521) => selfEncrypt_pair (mixKey key Cipher.initial) hn
  refine ⟨?_, tableEntry_p _, tableEntry_s _, hpair⟩
  have h0 := hpair 0 (by decide)
  rw [Nat.mul_zero, partlyFilled_zero, if_pos rfl] at h0
  rw [← tableEntry_p, ← tableEntry_p]
  exact h0

/-! ## KEYINIT and CLEANUP -/

/-- With a legal key length, the range of the key is the check that can fail (R105). -/
theorem firstFailure_keyBounds {s : State} (h1 : 1 ≤ lenValue s) (h2 : lenValue s ≤ 56)
    (hb : s.plat.bufBytes < srcOffset s + lenValue s) :
    firstFailure (checksOf s .keyinit) = some .bufferBounds := by
  have hlen : keyLengthOk s = true := (keyLengthOk_iff s).2 ⟨h1, h2⟩
  have hrange : inBounds s (srcOffset s) (lenValue s) = false := decide_eq_false (Nat.not_le.2 hb)
  simp only [checksOf, firstFailure, hlen, hrange, if_true, Bool.false_eq_true, if_false]

/-- Both checks of KEYINIT hold. -/
theorem keyinitChecks_hold {s : State} (h1 : 1 ≤ lenValue s) (h2 : lenValue s ≤ 56)
    (hb : srcOffset s + lenValue s ≤ s.plat.bufBytes) : ∀ c ∈ checksOf s .keyinit, c.1 = true := by
  simp only [checksOf, List.mem_cons, List.not_mem_nil, or_false, forall_eq_or_imp, forall_eq]
  exact ⟨(keyLengthOk_iff s).2 ⟨h1, h2⟩, (inBounds_iff s _ _).2 hb⟩

/-- The key is the LEN bytes of BUF from SRC on (R105). -/
theorem keyBytes_eq_map (s : State) :
    keyBytes s = (List.range (len s)).map (fun i => readByte s (src s + i)) :=
  readBytes_eq_map s (lenValue s) (srcOffset s)

/-- Settles O27: one clause for each way `exec` can go, the length's check before the range's. -/
theorem keyinitLoadsTheSchedule : Obligations.KeyinitLoadsTheSchedule := by
  unfold Obligations.KeyinitLoadsTheSchedule
  intro s
  have hne : Instr.keyinit ≠ .cleanup := by decide
  refine ⟨decode_encode .keyinit, exec_ignored hne, fun hf hl => exec_fails hne hf (firstFailure_keyLength hl),
    fun hf h1 h2 hb => exec_fails hne hf (firstFailure_keyBounds h1 h2 hb), fun hf h1 h2 hb => ?_⟩
  rw [exec_runs hf (keyinitChecks_hold h1 h2 hb), effectOf, keyinitEffect, keyBytes_eq_map]
  rfl

/-- Settles O28: CLEANUP has no check, and its next state is `zeroSecrets`. -/
theorem cleanupZeroesTheSecrets : Obligations.CleanupZeroesTheSecrets := by
  unfold Obligations.CleanupZeroesTheSecrets
  obtain ⟨hp, hs⟩ := Cipher.zero_entries
  exact ⟨decode_encode .cleanup, fun s => ⟨_, exec_cleanup s, hp, hs, rfl, rfl, rfl, rfl⟩⟩

end Sys2Proof.Machine
end

section
/-! PROOF. The ECB core (42_ecb_core.md): the round function, ENCB and DECB, the bulk commands' loop for every
overlap of the ranges, and the round trip. -/

namespace Sys2Proof.Machine

open Sys2Proof.Claims

/-! ## The cipher -/

/-- Byte fields of a word as quotients of its number (00_scope.md R10). -/
theorem byteN_eq_ofNat (x : Word) :
    byte0 x = BitVec.ofNat 8 (x.toNat / 2 ^ 24) ∧ byte1 x = BitVec.ofNat 8 (x.toNat / 2 ^ 16)
      ∧ byte2 x = BitVec.ofNat 8 (x.toNat / 2 ^ 8) ∧ byte3 x = BitVec.ofNat 8 x.toNat := by
  refine ⟨?_, ?_, ?_, ?_⟩ <;> apply BitVec.eq_of_toNat_eq <;>
    simp only [byte0, byte1, byte2, byte3, BitVec.extractLsb'_toNat, BitVec.toNat_ofNat,
      Nat.shiftRight_eq_div_pow, Nat.pow_zero, Nat.div_one]

/-- Settles O33: the additions of words are modulo 2^32, and each byte field is a quotient modulo 2^8. -/
theorem roundFunctionIsAsGiven : Obligations.RoundFunctionIsAsGiven := by
  unfold Obligations.RoundFunctionIsAsGiven
  intro c x
  obtain ⟨h0, h1, h2, h3⟩ := byteN_eq_ofNat x
  rw [roundF, h0, h1, h2, h3]
  simp only [BitVec.toNat_add, BitVec.toNat_xor]

/-- The inference of R133 that a round trip needs: the rounds run backwards on the exchanged halves, between the
same two whitenings. -/
theorem decryptBlock_encryptBlock (c : Cipher) (b : Word × Word) : decryptBlock c (encryptBlock c b) = b := by
  obtain ⟨l, r⟩ := b
  have undo := foldl_encryptRound_reverse c rounds (l ^^^ pEntry c 0, r)
  simp only [encryptBlock, decryptBlock]
  generalize rounds.foldl (encryptRound c) (l ^^^ pEntry c 0, r) = m at undo ⊢
  have back : rounds.reverse.foldl (decryptRound c) (m.2, m.1) = (r, l ^^^ pEntry c 0) := by
    rw [← Prod.swap, foldl_decryptRound_swap, undo, Prod.swap_prod_mk]
  rw [BitVec.xor_assoc, BitVec.xor_self, BitVec.xor_zero, back, BitVec.xor_assoc, BitVec.xor_self, BitVec.xor_zero]

theorem decrypt64_encrypt64 (c : Cipher) (x : DWord) : decrypt64 c (encrypt64 c x) = x := by
  simp only [decrypt64, encrypt64, hiHalf_join, loHalf_join, Prod.mk.eta, decryptBlock_encryptBlock, join_halves]

/-! ## The checks -/

/-- Without a key a cipher command latches NO_KEY (60_exceptions.md R214). -/
theorem exec_noKey {i : Instr} {s : State} (hi : i ∈ keyedCommands) (hf : s.latch.fault = false)
    (hk : s.keyv = false) : exec i s = .next (faultedWith 4 (encode i) s) := by
  have hne : i ≠ .cleanup := by rintro rfl; revert hi; decide
  have hfail : firstFailure (checksOf s i) = some .noKey := firstFailure_noKey hk (by simpa [keyedCommands] using hi)
  exact exec_fails hne hf hfail

theorem checksOf_bulk {i : Instr} {s : State} (hi : i ∈ [Instr.ecbenc, .ecbdec, .cbcenc, .cbcdec]) :
    checksOf s i = bulkChecks s := by
  cases i
  case ecbenc | ecbdec | cbcenc | cbcdec => rfl
  all_goals simp at hi

/-- With a key, a range out of bounds is the check of a bulk block command that fails. -/
theorem firstFailure_bulkBounds {s : State} (hk : s.keyv = true)
    (hb : s.plat.bufBytes < src s + wholeBytes s ∨ s.plat.bufBytes < dst s + wholeBytes s) :
    firstFailure (bulkChecks s) = some .bufferBounds := by
  have hr : (inBounds s (srcOffset s) (roundedLength s) && inBounds s (dstOffset s) (roundedLength s)) = false := by
    rw [Bool.and_eq_false_iff]
    exact hb.imp (fun h => decide_eq_false (Nat.not_le.2 h)) (fun h => decide_eq_false (Nat.not_le.2 h))
  simp only [bulkChecks, firstFailure, hk, hr, if_true, Bool.false_eq_true, if_false]

/-- With a key and a range out of bounds a bulk block command latches BUFFER_BOUNDS (60_exceptions.md R213). -/
theorem exec_bulk_outOfBounds {i : Instr} {s : State} (hi : i ∈ [Instr.ecbenc, .ecbdec, .cbcenc, .cbcdec])
    (hf : s.latch.fault = false) (hk : s.keyv = true)
    (hb : s.plat.bufBytes < src s + wholeBytes s ∨ s.plat.bufBytes < dst s + wholeBytes s) :
    exec i s = .next (faultedWith 3 (encode i) s) := by
  have hne : i ≠ .cleanup := by rintro rfl; revert hi; decide
  have hfail : firstFailure (checksOf s i) = some .bufferBounds := by
    rw [checksOf_bulk hi, firstFailure_bulkBounds hk hb]
  exact exec_fails hne hf hfail

/-! ## One block in registers -/

/-- With a key the check of ENCB and of DECB holds. -/
theorem exec_registerBlock_runs {i : Instr} {s : State} (hi : i = .encb ∨ i = .decb)
    (hf : s.latch.fault = false) (hk : s.keyv = true) : exec i s = .next (effectOf s i) := by
  refine exec_runs hf ?_
  obtain rfl | rfl := hi <;> simpa [checksOf] using hk

/-- Settles O36, clause by clause: ignored, NO_KEY, the result. -/
theorem encbEncryptsTheRegisterBlock : Obligations.EncbEncryptsTheRegisterBlock := by
  unfold Obligations.EncbEncryptsTheRegisterBlock
  exact fun s => ⟨decode_encode .encb, exec_ignored (by decide), exec_noKey (by decide),
    exec_registerBlock_runs (.inl rfl)⟩

/-- Settles O37, clause by clause: ignored, NO_KEY, the result. -/
theorem decbDecryptsTheRegisterBlock : Obligations.DecbDecryptsTheRegisterBlock := by
  unfold Obligations.DecbDecryptsTheRegisterBlock
  exact fun s => ⟨decode_encode .decb, exec_ignored (by decide), exec_noKey (by decide),
    exec_registerBlock_runs (.inr rfl)⟩

/-! ## Whole blocks in BUF -/

/-- ECB: the loop as the fold the rules write (R138, R139), for every overlap. A turn leaves IV, and P and S, as
they are, so the tables of each turn are those at the start. -/
theorem blockLoop_ecb_eq_foldl (f : Cipher → DWord → DWord) (k src dst : Nat) (s : State) :
    blockLoop (fun iv x => (f s.cipher x, iv)) k src dst s
      = (List.range k).foldl
          (fun u b => write64 (dst + 8 * b) (f u.cipher (read64 u (src + 8 * b))) u) s := by
  induction k with
  | zero => rfl
  | succ k ih =>
    rw [blockLoop_snoc, List.range_succ, List.foldl_append, ← ih, List.foldl_cons, List.foldl_nil, blockLoop_cipher]
    rfl

/-- A bulk ECB command with a key and both ranges in bounds: the fold over its n/8 blocks, then COUNT = n (R137). -/
theorem exec_ecb_eq_foldl {i : Instr} {s : State} (f : Cipher → DWord → DWord)
    (hi : i ∈ [Instr.ecbenc, .ecbdec, .cbcenc, .cbcdec])
    (he : effectOf s i = bulkEffect (fun iv x => (f s.cipher x, iv)) s)
    (hf : s.latch.fault = false) (hk : s.keyv = true) (hs : src s + wholeBytes s ≤ s.plat.bufBytes)
    (hd : dst s + wholeBytes s ≤ s.plat.bufBytes) :
    ∃ u, u = (List.range (wholeBytes s / 8)).foldl
        (fun u b => write64 (dst s + 8 * b) (f u.cipher (read64 u (src s + 8 * b))) u) s
      ∧ exec i s = .next { u with regs := { u.regs with count := BitVec.ofNat 32 (wholeBytes s) } } := by
  refine ⟨_, blockLoop_ecb_eq_foldl f _ _ _ s, ?_⟩
  rw [exec_bulk_runs hi hf hk hs hd, he]
  rfl

/-- Settles O38, clause by clause: ignored, NO_KEY, BUFFER_BOUNDS, the fold of encryptions. -/
theorem ecbencEncryptsBlocksInOrder : Obligations.EcbencEncryptsBlocksInOrder := by
  unfold Obligations.EcbencEncryptsBlocksInOrder
  exact fun s => ⟨decode_encode .ecbenc, exec_ignored (by decide), exec_noKey (by decide),
    exec_bulk_outOfBounds (by decide), exec_ecb_eq_foldl encrypt64 (by decide) rfl⟩

/-- Settles O39, clause by clause: ignored, NO_KEY, BUFFER_BOUNDS, the fold of decryptions. -/
theorem ecbdecDecryptsBlocksInOrder : Obligations.EcbdecDecryptsBlocksInOrder := by
  unfold Obligations.EcbdecDecryptsBlocksInOrder
  exact fun s => ⟨decode_encode .ecbdec, exec_ignored (by decide), exec_noKey (by decide),
    exec_bulk_outOfBounds (by decide), exec_ecb_eq_foldl decrypt64 (by decide) rfl⟩

/-! ## The round trip -/

section
variable (mode : DWord → DWord → DWord × DWord) (s : State)
@[simp] theorem bulkEffect_plat : (bulkEffect mode s).plat = s.plat := by rw [bulkEffect_frame]
@[simp] theorem bulkEffect_latch : (bulkEffect mode s).latch = s.latch := by rw [bulkEffect_frame]
@[simp] theorem dst_bulkEffect : dst (bulkEffect mode s) = dst s := by rw [bulkEffect_frame]; rfl
@[simp] theorem wholeBytes_bulkEffect : wholeBytes (bulkEffect mode s) = wholeBytes s := by
  rw [bulkEffect_frame]; rfl
end

/-- The state with SRC set to `a`, as the host leaves it between the two commands. -/
def withSource (a : Word) (s : State) : State := { s with regs := { s.regs with src := a } }

section
variable (a : Word) (s : State)
@[simp] theorem withSource_plat : (withSource a s).plat = s.plat := rfl
@[simp] theorem withSource_cipher : (withSource a s).cipher = s.cipher := rfl
@[simp] theorem withSource_keyv : (withSource a s).keyv = s.keyv := rfl
@[simp] theorem withSource_latch : (withSource a s).latch = s.latch := rfl
@[simp] theorem dst_withSource : dst (withSource a s) = dst s := rfl
@[simp] theorem wholeBytes_withSource : wholeBytes (withSource a s) = wholeBytes s := rfl
@[simp] theorem read64_withSource (off : Nat) : read64 (withSource a s) off = read64 s off := rfl
@[simp] theorem src_withSource_dst (t : State) : src (withSource s.regs.dst t) = dst s := rfl
end

/-- After ECBENC and ECBDEC of its output in place, block `b` of the destination is the block of the source as it
stood before both. -/
theorem read64_ecbdec_ecbenc {s : State} {b : Nat} (hb : 8 * b < wholeBytes s)
    (h : inPlaceOrApart (src s) (dst s) (wholeBytes s)) :
    read64 (effectOf (withSource s.regs.dst (effectOf s .ecbenc)) .ecbdec) (dst s + 8 * b)
      = read64 s (src s + 8 * b) := by
  have henc : read64 (effectOf s .ecbenc) (dst s + 8 * b) = encrypt64 s.cipher (read64 s (src s + 8 * b)) :=
    read64_bulkEffect_ecb (encrypt64 s.cipher) hb h
  have hdst : dst (withSource s.regs.dst (effectOf s .ecbenc)) = dst s := dst_bulkEffect _ s
  have hn : wholeBytes (withSource s.regs.dst (effectOf s .ecbenc)) = wholeBytes s := wholeBytes_bulkEffect _ s
  have hc : (withSource s.regs.dst (effectOf s .ecbenc)).cipher = s.cipher := bulkEffect_cipher _ s
  have hdec : read64 (effectOf (withSource s.regs.dst (effectOf s .ecbenc)) .ecbdec)
      (dst (withSource s.regs.dst (effectOf s .ecbenc)) + 8 * b) = _ :=
    read64_bulkEffect_ecb (decrypt64 _) (by rwa [hn]) (.inl hdst.symm)
  rw [hdst, hc, src_withSource_dst, read64_withSource, henc, decrypt64_encrypt64] at hdec
  exact hdec

/-- Settles O41: both commands answer, and equal blocks are equal bytes. -/
theorem ecbRoundTripRestoresThePlaintext : Obligations.EcbRoundTripRestoresThePlaintext := by
  unfold Obligations.EcbRoundTripRestoresThePlaintext
  intro s hf hk hs hd hr
  have henc : exec .ecbenc s = .next (effectOf s .ecbenc) := exec_bulk_runs (by decide) hf hk hs hd
  have hdec : exec .ecbdec (withSource s.regs.dst (effectOf s .ecbenc)) = .next _ :=
    exec_bulk_runs (by decide) (by simpa [effectOf] using hf) (by simpa [effectOf] using hk)
      (by simpa [effectOf] using hd) (by simpa [effectOf] using hd)
  have hiv : (effectOf s .ecbenc).iv = s.iv := effectOf_iv s (by decide)
  have h8 : wholeBytes s % 8 = 0 := by simp only [wholeBytes]; omega
  exact ⟨_, _, henc, hdec, fun j hj => readByte_of_read64 (fun b hb => read64_ecbdec_ecbenc hb hr) h8 hj,
    (exec_iv hdec (by decide)).trans hiv⟩

end Sys2Proof.Machine
end

section
/-! PROOF. CBC and the IV register (43_cbc.md R160 to R164): SETIV and GETIV, the bulk commands' loop for every
overlap of the ranges, the chaining, a wrong initial IV (90_conflicts.md C5), and a run split in two. -/

namespace Sys2Proof.Machine

open Sys2Proof.Claims

/-! ## The IV register -/

/-- SETIV and GETIV have no check, so with FAULT = 0 they have their effect, with a key or without. -/
theorem exec_ivCommand_runs {i : Instr} {s : State} (hi : i = .setiv ∨ i = .getiv) (hf : s.latch.fault = false) :
    exec i s = .next (effectOf s i) := by
  refine exec_runs hf ?_
  obtain rfl | rfl := hi <;> simp [checksOf]

/-- Settles O42: the register takes the two halves joined. -/
theorem setivLoadsTheIvRegister : Obligations.SetivLoadsTheIvRegister := by
  unfold Obligations.SetivLoadsTheIvRegister
  exact fun s => ⟨decode_encode .setiv, exec_ignored (by decide),
    fun hf => ⟨_, exec_ivCommand_runs (.inl rfl) hf, rfl, join_toNat s.regs.dhi s.regs.dlo⟩⟩

/-- Settles O43: the two halves, joined again, are the register. -/
theorem getivReadsTheIvRegister : Obligations.GetivReadsTheIvRegister := by
  unfold Obligations.GetivReadsTheIvRegister
  intro s
  have hnum : (hiHalf s.iv).toNat * 2 ^ 32 + (loHalf s.iv).toNat = s.iv.toNat := by rw [← join_toNat, join_halves]
  exact ⟨decode_encode .getiv, exec_ignored (by decide),
    fun hf => ⟨_, exec_ivCommand_runs (.inr rfl) hf, rfl, hnum⟩⟩

/-! ## The loop, for every overlap -/

/-- The loop in any mode as the fold the rules write. A turn leaves P and S as they are, so the tables of each turn
are those at the start. -/
theorem blockLoop_tables_eq_foldl (mode : Cipher → DWord → DWord → DWord × DWord) (k src dst : Nat) (s : State) :
    blockLoop (mode s.cipher) k src dst s
      = (List.range k).foldl (fun u b => blockTurn (mode u.cipher) (src + 8 * b) (dst + 8 * b) u) s := by
  induction k with
  | zero => rfl
  | succ k ih =>
    rw [blockLoop_snoc, List.range_succ, List.foldl_append, ← ih, List.foldl_cons, List.foldl_nil, blockLoop_cipher]

/-- A bulk block command with a key and both ranges in bounds: the fold of its n/8 turns, then COUNT = n (R137). -/
theorem exec_bulk_eq_foldl {i : Instr} {s : State} (mode : Cipher → DWord → DWord → DWord × DWord)
    (hi : i ∈ [Instr.ecbenc, .ecbdec, .cbcenc, .cbcdec])
    (he : effectOf s i = bulkEffect (mode s.cipher) s)
    (hf : s.latch.fault = false) (hk : s.keyv = true) (hs : src s + wholeBytes s ≤ s.plat.bufBytes)
    (hd : dst s + wholeBytes s ≤ s.plat.bufBytes) :
    ∃ u, u = (List.range (wholeBytes s / 8)).foldl
        (fun u b => blockTurn (mode u.cipher) (src s + 8 * b) (dst s + 8 * b) u) s
      ∧ exec i s = .next { u with regs := { u.regs with count := BitVec.ofNat 32 (wholeBytes s) } } := by
  refine ⟨_, blockLoop_tables_eq_foldl mode _ _ _ s, ?_⟩
  rw [exec_bulk_runs hi hf hk hs hd, he]
  rfl

/-- Settles O44, clause by clause: ignored, NO_KEY, BUFFER_BOUNDS, the fold whose turns make the ciphertext the IV. -/
theorem cbcencEncryptsBlocksInOrder : Obligations.CbcencEncryptsBlocksInOrder := by
  unfold Obligations.CbcencEncryptsBlocksInOrder
  exact fun s => ⟨decode_encode .cbcenc, exec_ignored (by decide), exec_noKey (by decide),
    exec_bulk_outOfBounds (by decide), exec_bulk_eq_foldl cbcEncryptMode (by decide) rfl⟩

/-- Settles O45, clause by clause: ignored, NO_KEY, BUFFER_BOUNDS, the fold whose turns make the block read the IV. -/
theorem cbcdecDecryptsBlocksInOrder : Obligations.CbcdecDecryptsBlocksInOrder := by
  unfold Obligations.CbcdecDecryptsBlocksInOrder
  exact fun s => ⟨decode_encode .cbcdec, exec_ignored (by decide), exec_noKey (by decide),
    exec_bulk_outOfBounds (by decide), exec_bulk_eq_foldl cbcDecryptMode (by decide) rfl⟩

/-! ## The chaining -/

/-- The ranges of a bulk command, counted in its blocks. -/
theorem inPlaceOrApart_blocks {s : State} (h : inPlaceOrApart (src s) (dst s) (wholeBytes s)) :
    srcOffset s = dstOffset s
      ∨ srcOffset s + 8 * (roundedLength s / Config.blockBytes) ≤ dstOffset s
      ∨ dstOffset s + 8 * (roundedLength s / Config.blockBytes) ≤ srcOffset s := by
  rw [roundedLength_blocks]
  exact h

theorem block_lt_of_wholeBytes {s : State} {b : Nat} (hb : 8 * b < wholeBytes s) :
    b < roundedLength s / Config.blockBytes := by
  have hn : 8 * (roundedLength s / Config.blockBytes) = wholeBytes s := roundedLength_blocks s
  omega

section
variable (c : Cipher) {s : State} {b : Nat}

/-- CBCENC's block `b` encrypts the source block with the ciphertext block before it (R160, R163). -/
theorem read64_bulkEffect_cbcEncrypt (hb : 8 * b < wholeBytes s)
    (h : inPlaceOrApart (src s) (dst s) (wholeBytes s)) :
    read64 (bulkEffect (cbcEncryptMode c) s) (dst s + 8 * b) =
      encrypt64 c (read64 s (src s + 8 * b)
        ^^^ (if b = 0 then s.iv else read64 (bulkEffect (cbcEncryptMode c) s) (dst s + 8 * (b - 1)))) := by
  simp only [bulkEffect, read64_setCount]
  exact read64_blockLoop_cbcEncrypt c s (block_lt_of_wholeBytes hb) (inPlaceOrApart_blocks h)

/-- CBCDEC's block `b` is the decrypted source block with the source block before it (R160, R164). -/
theorem read64_bulkEffect_cbcDecrypt (hb : 8 * b < wholeBytes s)
    (h : inPlaceOrApart (src s) (dst s) (wholeBytes s)) :
    read64 (bulkEffect (cbcDecryptMode c) s) (dst s + 8 * b) =
      decrypt64 c (read64 s (src s + 8 * b)) ^^^ (if b = 0 then s.iv else read64 s (src s + 8 * (b - 1))) := by
  rw [bulkEffect, read64_setCount]
  exact read64_blockLoop_cbcDecrypt c s (block_lt_of_wholeBytes hb) (inPlaceOrApart_blocks h)
end

/-- A choice between no block and the last of `k` blocks at `a`, written with the range's length `n`. -/
theorem lastBlock_of_length {n k : Nat} (hn : 8 * k = n) (iv : DWord) (s : State) (a : Nat) :
    (if k = 0 then iv else read64 s (a + 8 * (k - 1))) = if n = 0 then iv else read64 s (a + n - 8) := by
  by_cases hk : k = 0
  · rw [if_pos hk, if_pos (by omega)]
  · rw [if_neg hk, if_neg (by omega), show a + n - 8 = a + 8 * (k - 1) by omega]

/-- CBCENC leaves the last ciphertext block in IV, for every overlap (R160). -/
theorem bulkEffect_cbcEncrypt_iv (c : Cipher) (s : State) :
    (bulkEffect (cbcEncryptMode c) s).iv =
      if wholeBytes s = 0 then s.iv
      else read64 (bulkEffect (cbcEncryptMode c) s) (dst s + wholeBytes s - 8) := by
  have hn : 8 * (roundedLength s / Config.blockBytes) = wholeBytes s := roundedLength_blocks s
  rw [← lastBlock_of_length hn]
  exact blockLoop_cbcEncrypt_iv c s (srcOffset s) (dstOffset s) _

/-- CBCDEC leaves the last source block in IV (R160). -/
theorem bulkEffect_cbcDecrypt_iv (c : Cipher) {s : State} (h : inPlaceOrApart (src s) (dst s) (wholeBytes s)) :
    (bulkEffect (cbcDecryptMode c) s).iv =
      if wholeBytes s = 0 then s.iv else read64 s (src s + wholeBytes s - 8) := by
  have hn : 8 * (roundedLength s / Config.blockBytes) = wholeBytes s := roundedLength_blocks s
  rw [← lastBlock_of_length hn]
  exact blockLoop_cbcDecrypt_iv c s (Nat.le_refl _) (inPlaceOrApart_blocks h)

/-- Settles O46: both commands answer, with the blocks and the IV of their modes. -/
theorem cbcChainsThroughTheCiphertext : Obligations.CbcChainsThroughTheCiphertext := by
  unfold Obligations.CbcChainsThroughTheCiphertext
  intro s hf hk hs hd hr
  exact ⟨⟨_, exec_bulk_runs (by decide) hf hk hs hd, fun _ hb => read64_bulkEffect_cbcEncrypt s.cipher hb hr,
      bulkEffect_cbcEncrypt_iv s.cipher s⟩,
    ⟨_, exec_bulk_runs (by decide) hf hk hs hd, fun _ hb => read64_bulkEffect_cbcDecrypt s.cipher hb hr,
      bulkEffect_cbcDecrypt_iv s.cipher hr⟩⟩

/-! ## A wrong initial IV -/

/-- The first block goes with the initial IV, whichever it is. -/
theorem read64_bulkEffect_cbcDecrypt_first (c : Cipher) {s : State} (h8 : 8 ≤ wholeBytes s)
    (h : inPlaceOrApart (src s) (dst s) (wholeBytes s)) :
    read64 (bulkEffect (cbcDecryptMode c) s) (dst s) = decrypt64 c (read64 s (src s)) ^^^ s.iv :=
  read64_bulkEffect_cbcDecrypt (b := 0) c (by omega) h

/-- With another initial IV the first block is off by the XOR of the two. -/
theorem read64_bulkEffect_cbcDecrypt_setIv_first (c : Cipher) {s : State} (v : DWord) (h8 : 8 ≤ wholeBytes s)
    (h : inPlaceOrApart (src s) (dst s) (wholeBytes s)) :
    read64 (bulkEffect (cbcDecryptMode c) (setIv v s)) (dst s)
      = read64 (bulkEffect (cbcDecryptMode c) s) (dst s) ^^^ s.iv ^^^ v := by
  rw [read64_bulkEffect_cbcDecrypt_first c h8 h, BitVec.xor_assoc _ s.iv s.iv, BitVec.xor_self, BitVec.xor_zero]
  exact read64_bulkEffect_cbcDecrypt_first (s := setIv v s) c h8 h

/-- Every later block goes with a source block, whichever the initial IV is. -/
theorem read64_bulkEffect_cbcDecrypt_setIv_later (c : Cipher) {s : State} (v : DWord) {b : Nat} (hb : 1 ≤ b)
    (hn : 8 * b < wholeBytes s) (h : inPlaceOrApart (src s) (dst s) (wholeBytes s)) :
    read64 (bulkEffect (cbcDecryptMode c) (setIv v s)) (dst s + 8 * b)
      = read64 (bulkEffect (cbcDecryptMode c) s) (dst s + 8 * b) := by
  have hwrong := read64_bulkEffect_cbcDecrypt (s := setIv v s) c hn h
  have hright := read64_bulkEffect_cbcDecrypt c hn h
  rw [if_neg (Nat.ne_of_gt hb)] at hwrong hright
  exact hwrong.trans hright.symm

/-- With a block at least the final IV is a source block, whichever the initial IV is. -/
theorem bulkEffect_cbcDecrypt_setIv_iv (c : Cipher) {s : State} (v : DWord) (h8 : 8 ≤ wholeBytes s)
    (h : inPlaceOrApart (src s) (dst s) (wholeBytes s)) :
    (bulkEffect (cbcDecryptMode c) (setIv v s)).iv = (bulkEffect (cbcDecryptMode c) s).iv := by
  have hn : wholeBytes s ≠ 0 := by omega
  have hwrong := bulkEffect_cbcDecrypt_iv (s := setIv v s) c h
  have hright := bulkEffect_cbcDecrypt_iv c h
  rw [if_neg hn] at hright
  rw [if_neg (show wholeBytes (setIv v s) ≠ 0 from hn)] at hwrong
  exact hwrong.trans hright.symm

/-- Settles O47: both runs answer, and differ as their first blocks do. -/
theorem wrongIvSpoilsOnlyTheFirstBlock : Obligations.WrongIvSpoilsOnlyTheFirstBlock := by
  unfold Obligations.WrongIvSpoilsOnlyTheFirstBlock
  intro s wrong hf hk h8 hs hd hr
  exact ⟨_, _, exec_bulk_runs (by decide) hf hk hs hd,
    exec_bulk_runs (s := setIv wrong s) (by decide) hf hk hs hd,
    read64_bulkEffect_cbcDecrypt_setIv_first s.cipher wrong h8 hr,
    fun _ hb hn => read64_bulkEffect_cbcDecrypt_setIv_later s.cipher wrong hb hn hr,
    bulkEffect_cbcDecrypt_setIv_iv s.cipher wrong h8 hr⟩

/-! ## A run split in two -/

/-- Two states agree on all that the loop of blocks reads beside the tables: BUF with its free bytes, and IV. -/
structure SameBlocks (t s : State) : Prop where
  buf : t.buf = s.buf
  epoch : t.epoch = s.epoch
  iv : t.iv = s.iv

theorem SameBlocks.symm {t s : State} (h : SameBlocks t s) : SameBlocks s t := ⟨h.buf.symm, h.epoch.symm, h.iv.symm⟩

theorem SameBlocks.trans {t u s : State} (h : SameBlocks t u) (h' : SameBlocks u s) : SameBlocks t s :=
  ⟨h.buf.trans h'.buf, h.epoch.trans h'.epoch, h.iv.trans h'.iv⟩

/-- A bulk block command of `k` blocks does to BUF and IV what its loop does from any state with the same ones. -/
theorem sameBlocks_bulkEffect (mode : DWord → DWord → DWord × DWord) {t s : State} {k : Nat} (h : SameBlocks t s)
    (hk : wholeBytes t = 8 * k) : SameBlocks (bulkEffect mode t) (blockLoop mode k (src t) (dst t) s) := by
  have hn : 8 * (roundedLength t / Config.blockBytes) = 8 * k := (roundedLength_blocks t).trans hk
  obtain ⟨hbuf, hiv⟩ := blockLoop_congr mode k (src t) (dst t) h.buf h.epoch h.iv
  rw [bulkEffect, Nat.eq_of_mul_eq_mul_left (by decide) hn]
  refine ⟨hbuf, ?_, hiv⟩
  rw [setCount_epoch, blockLoop_epoch, blockLoop_epoch, h.epoch]

/-- The state with SRC, DST and LEN set, as the host leaves it before a command. -/
def withRanges (a b n : Word) (s : State) : State := { s with regs := { s.regs with src := a, dst := b, len := n } }

section
variable (a b n : Word) (s : State)
@[simp] theorem withRanges_plat : (withRanges a b n s).plat = s.plat := rfl
@[simp] theorem withRanges_cipher : (withRanges a b n s).cipher = s.cipher := rfl
@[simp] theorem withRanges_keyv : (withRanges a b n s).keyv = s.keyv := rfl
@[simp] theorem withRanges_latch : (withRanges a b n s).latch = s.latch := rfl
end

theorem sameBlocks_withRanges (a b n : Word) {t s : State} (h : SameBlocks t s) :
    SameBlocks (withRanges a b n t) s := ⟨h.buf, h.epoch, h.iv⟩

theorem wholeBytes_withRanges (a b : Word) {n : Word} (s : State) (h : n.toNat % 8 = 0) :
    wholeBytes (withRanges a b n s) = n.toNat := by
  change n.toNat - n.toNat % 8 = n.toNat
  rw [h, Nat.sub_zero]

/-- Two bulk block commands, the second going on where the first ended, do to BUF and IV what one of both lengths
does, for every overlap. -/
theorem sameBlocks_split (mode : DWord → DWord → DWord × DWord) {s : State} {l1 l2 a b : Word}
    (h1 : l1.toNat % 8 = 0) (h2 : l2.toNat % 8 = 0) (hl : len s = l1.toNat + l2.toNat)
    (ha : a.toNat = src s + l1.toNat) (hb : b.toNat = dst s + l1.toNat) :
    SameBlocks (bulkEffect mode (withRanges a b l2 (bulkEffect mode (withRanges s.regs.src s.regs.dst l1 s))))
      (bulkEffect mode s) := by
  obtain ⟨k1, hk1⟩ := Nat.dvd_of_mod_eq_zero h1
  obtain ⟨k2, hk2⟩ := Nat.dvd_of_mod_eq_zero h2
  have hself : SameBlocks s s := ⟨rfl, rfl, rfl⟩
  have hfirst : SameBlocks (bulkEffect mode (withRanges s.regs.src s.regs.dst l1 s))
      (blockLoop mode k1 (src s) (dst s) s) :=
    sameBlocks_bulkEffect mode (sameBlocks_withRanges _ _ _ hself) ((wholeBytes_withRanges _ _ s h1).trans hk1)
  have hsecond := sameBlocks_bulkEffect mode (sameBlocks_withRanges a b l2 hfirst)
    ((wholeBytes_withRanges _ _ _ h2).trans hk2)
  have hwhole : SameBlocks (bulkEffect mode s) (blockLoop mode (k1 + k2) (src s) (dst s) s) :=
    sameBlocks_bulkEffect mode hself (by rw [wholeBytes]; omega)
  rw [blockLoop_add, ← hk1, ← ha, ← hb] at hwhole
  exact hsecond.trans hwhole.symm

/-- An offset moved on inside BUF does not wrap around. -/
theorem toNat_add_inside {a l : Word} {n bound : Nat} (hl : l.toNat ≤ n) (hn : a.toNat + n ≤ bound)
    (hb : bound < 2 ^ 32) : (a + l).toNat = a.toNat + l.toNat := BitVec.toNat_add_of_lt (by omega)

/-- CBCENC with its operands set, on a machine with a key and no fault, and both ranges in bounds. -/
theorem exec_cbcenc_withRanges {t : State} {a b n : Word} (hf : t.latch.fault = false) (hk : t.keyv = true)
    (h8 : n.toNat % 8 = 0) (ha : a.toNat + n.toNat ≤ t.plat.bufBytes) (hb : b.toNat + n.toNat ≤ t.plat.bufBytes) :
    exec .cbcenc (withRanges a b n t) = .next (bulkEffect (cbcEncryptMode t.cipher) (withRanges a b n t)) := by
  have hn : wholeBytes (withRanges a b n t) = n.toNat := wholeBytes_withRanges a b t h8
  exact exec_bulk_runs (by decide) hf hk (by rw [hn]; exact ha) (by rw [hn]; exact hb)

/-- Settles O48: the three commands answer, and two runs of the loop, one behind the other, are one. -/
theorem cbcencSplitsAcrossCommands : Obligations.CbcencSplitsAcrossCommands := by
  unfold Obligations.CbcencSplitsAcrossCommands
  intro s l1 l2 hf hk h1 h2 hl hs hd hbuf
  have ha : (s.regs.src + l1).toNat = src s + l1.toNat := toNat_add_inside (by omega) hs hbuf
  have hb : (s.regs.dst + l1).toNat = dst s + l1.toNat := toNat_add_inside (by omega) hd hbuf
  have hn : wholeBytes s = len s := by rw [wholeBytes]; omega
  have hwhole : exec .cbcenc s = .next (bulkEffect (cbcEncryptMode s.cipher) s) :=
    exec_bulk_runs (by decide) hf hk (by omega) (by omega)
  have hfirst := exec_cbcenc_withRanges (a := s.regs.src) (b := s.regs.dst) hf hk h1
    (by rw [← src]; omega) (by rw [← dst]; omega)
  have hsecond := exec_cbcenc_withRanges (a := s.regs.src + l1) (b := s.regs.dst + l1)
    (t := bulkEffect (cbcEncryptMode s.cipher) (withRanges s.regs.src s.regs.dst l1 s))
    (by simpa using hf) (by simpa using hk) h2
    (by rw [bulkEffect_plat, withRanges_plat, ha]; omega) (by rw [bulkEffect_plat, withRanges_plat, hb]; omega)
  rw [bulkEffect_cipher, withRanges_cipher] at hsecond
  have hsame := sameBlocks_split (cbcEncryptMode s.cipher) h1 h2 hl ha hb
  exact ⟨_, _, _, hwhole, hfirst, hsecond, readByte_congr hsame.buf hsame.epoch, hsame.iv⟩

end Sys2Proof.Machine
end

section
/-! PROOF. The binary codec (44_codec.md R181 to R188): the bounds of its commands, the words LD32 to ST64 read and
write, the digits, and the loops of HEXENC and HEXDEC for every overlap of the ranges. -/

namespace Sys2Proof.Machine

open Sys2Proof.Claims

/-! ## The checks -/

/-- The commands of 44_codec.md. Each has one check, BUFFER_BOUNDS (R181 to R184, R186, R188). -/
def codecCommands : List Instr := [.ld32, .st32, .ld64, .st64, .hexenc, .hexdec]

/-- The check of a codec command is that its ranges are in bounds. -/
theorem codecChecks_hold_iff {i : Instr} (hi : i ∈ codecCommands) (s : State) :
    (∀ c ∈ checksOf s i, c.1 = true) ↔ rangesHold i s := by
  cases i
  case ld32 | st32 | ld64 | st64 | hexenc | hexdec =>
    simp [checksOf, rangesHold, checkedRanges, inBounds_iff, src, dst, len, srcOffset, dstOffset, lenValue, pairCount]
  all_goals simp [codecCommands] at hi

/-- The one code a codec command can report. -/
theorem firstFailure_codec {i : Instr} {s : State} {e : FaultCode} (hi : i ∈ codecCommands)
    (h : firstFailure (checksOf s i) = some e) : e = .bufferBounds := by
  have he := firstFailure_mayRaise h
  cases i
  case ld32 | st32 | ld64 | st64 | hexenc | hexdec => exact List.mem_singleton.1 he
  all_goals simp [codecCommands] at hi

theorem exec_codec_ignored {i : Instr} {s : State} (hi : i ∈ codecCommands) (hf : s.latch.fault = true) :
    exec i s = .next s := exec_ignored (by rintro rfl; simp [codecCommands] at hi) hf

/-- With a range out of bounds a codec command latches BUFFER_BOUNDS (60_exceptions.md R213). -/
theorem exec_codec_outOfBounds {i : Instr} {s : State} (hi : i ∈ codecCommands) (hf : s.latch.fault = false)
    (hb : ¬ rangesHold i s) : exec i s = .next (faultedWith 3 (encode i) s) := by
  have hne : i ≠ .cleanup := by rintro rfl; simp [codecCommands] at hi
  cases hc : firstFailure (checksOf s i) with
  | none => exact absurd ((codecChecks_hold_iff hi s).1 ((firstFailure_none _).1 hc)) hb
  | some e =>
    rw [firstFailure_codec hi hc] at hc
    exact exec_fails hne hf hc

/-- With its ranges in bounds a codec command has its effect. -/
theorem exec_codec_runs {i : Instr} {s : State} (hi : i ∈ codecCommands) (hf : s.latch.fault = false)
    (hb : rangesHold i s) : exec i s = .next (effectOf s i) :=
  exec_runs hf ((codecChecks_hold_iff hi s).2 hb)

/-- The ranges of a command that checks one. -/
theorem rangesHold_one {i : Instr} {s : State} {a n : Nat} (h : checkedRanges i s = [(a, n)]) :
    rangesHold i s ↔ a + n ≤ s.plat.bufBytes := by simp only [rangesHold, h, List.forall_mem_singleton]

/-- The ranges of a command that checks two. -/
theorem rangesHold_two {i : Instr} {s : State} {a n b m : Nat} (h : checkedRanges i s = [(a, n), (b, m)]) :
    rangesHold i s ↔ a + n ≤ s.plat.bufBytes ∧ b + m ≤ s.plat.bufBytes := by
  simp [rangesHold, h]

/-- A codec command with one range, when the range is out of bounds. -/
theorem exec_codec_oneOutOfBounds {i : Instr} {s : State} {a n : Nat} (hi : i ∈ codecCommands)
    (hr : checkedRanges i s = [(a, n)]) (hf : s.latch.fault = false) (hb : s.plat.bufBytes < a + n) :
    exec i s = .next (faultedWith 3 (encode i) s) :=
  exec_codec_outOfBounds hi hf fun h => Nat.not_le.2 hb ((rangesHold_one hr).1 h)

/-- A codec command with two ranges, when one of them is out of bounds. -/
theorem exec_codec_twoOutOfBounds {i : Instr} {s : State} {a n b m : Nat} (hi : i ∈ codecCommands)
    (hr : checkedRanges i s = [(a, n), (b, m)]) (hf : s.latch.fault = false)
    (hb : s.plat.bufBytes < a + n ∨ s.plat.bufBytes < b + m) : exec i s = .next (faultedWith 3 (encode i) s) :=
  exec_codec_outOfBounds hi hf fun h => by
    have := (rangesHold_two hr).1 h
    omega

/-! ## Words and blocks in BUF -/

/-- The number read by MemRead(a, 4) (20_memory.md R52). -/
theorem read32_toNat (s : State) (a : Nat) :
    (read32 s a).toNat = (readByte s a).toNat * 2 ^ 24 + (readByte s (a + 1)).toNat * 2 ^ 16
      + (readByte s (a + 2)).toNat * 2 ^ 8 + (readByte s (a + 3)).toNat := be32_toNat _ _ _ _

/-- The number read by MemRead(a, 8), byte by byte (20_memory.md R53). -/
theorem read64_toNat (s : State) (a : Nat) :
    (read64 s a).toNat = (List.range 8).foldl (fun v i => v * 256 + (readByte s (a + i)).toNat) 0 := by
  simp only [read64, join_toNat, read32_toNat, Nat.add_assoc, Nat.reduceAdd, List.range_succ, List.range_zero,
    List.nil_append, List.cons_append, List.foldl_cons, List.foldl_nil, Nat.add_zero]
  omega

/-- Byte `i` of a word as a quotient of its number. -/
theorem wordByte_toNat (w : Word) (i : Nat) : (wordByte w i).toNat = w.toNat / 2 ^ (8 * (3 - i)) % 256 := by
  rw [wordByte, BitVec.extractLsb'_toNat, Nat.shiftRight_eq_div_pow]

/-- Byte `i` of a block as a quotient of its number. -/
theorem blockByte_toNat (v : DWord) (i : Nat) : (blockByte v i).toNat = v.toNat / 2 ^ (8 * (7 - i)) % 256 := by
  rw [blockByte, BitVec.extractLsb'_toNat, Nat.shiftRight_eq_div_pow]

theorem readByte_write32_inside (s : State) (a : Nat) (v : Word) {i : Nat} (hi : i < 4) :
    readByte (write32 a v s) (a + i) = wordByte v i := by
  rw [readByte_write32, if_pos (by omega), Nat.add_sub_cancel_left]

theorem readByte_write32_outside (s : State) (a a' : Nat) (v : Word) (h : a' < a ∨ a + 4 ≤ a') :
    readByte (write32 a v s) a' = readByte s a' := by
  rw [readByte_write32, if_neg (by omega)]

theorem readByte_write64_inside (s : State) (a : Nat) (v : DWord) {i : Nat} (hi : i < 8) :
    readByte (write64 a v s) (a + i) = blockByte v i := by
  rw [readByte_write64, if_pos (by omega), Nat.add_sub_cancel_left]

/-- Settles O50, clause by clause: ignored, BUFFER_BOUNDS, the word read. -/
theorem ld32ReadsABigEndianWord : Obligations.Ld32ReadsABigEndianWord := by
  unfold Obligations.Ld32ReadsABigEndianWord
  intro s
  have hi : Instr.ld32 ∈ codecCommands := by decide
  refine ⟨decode_encode .ld32, exec_codec_ignored hi, exec_codec_oneOutOfBounds hi rfl, fun hf hb => ?_⟩
  exact ⟨_, exec_codec_runs hi hf ((rangesHold_one rfl).2 hb), rfl, read32_toNat s (src s)⟩

/-- Settles O51: the two halves, joined again, are the block read. -/
theorem ld64ReadsABigEndianBlock : Obligations.Ld64ReadsABigEndianBlock := by
  unfold Obligations.Ld64ReadsABigEndianBlock
  intro s
  have hi : Instr.ld64 ∈ codecCommands := by decide
  refine ⟨decode_encode .ld64, exec_codec_ignored hi, exec_codec_oneOutOfBounds hi rfl, fun hf hb => ?_⟩
  refine ⟨_, exec_codec_runs hi hf ((rangesHold_one rfl).2 hb), rfl, ?_⟩
  rw [← read64_toNat, ← join_toNat]
  exact congrArg BitVec.toNat (join_halves (read64 s (src s)))

/-- Settles O52: each byte of the word at its place, and the bytes outside the write as they were. -/
theorem st32WritesABigEndianWord : Obligations.St32WritesABigEndianWord := by
  unfold Obligations.St32WritesABigEndianWord
  intro s
  have hi : Instr.st32 ∈ codecCommands := by decide
  refine ⟨decode_encode .st32, exec_codec_ignored hi, exec_codec_oneOutOfBounds hi rfl, fun hf hb => ?_⟩
  refine ⟨_, exec_codec_runs hi hf ((rangesHold_one rfl).2 hb), rfl, fun k hk => ?_,
    fun a => readByte_write32_outside s (dst s) a s.regs.dlo⟩
  rw [← wordByte_toNat]
  exact congrArg BitVec.toNat (readByte_write32_inside s (dst s) s.regs.dlo hk)

/-- Settles O53: each byte of the block at its place, and the bytes outside the write as they were. -/
theorem st64WritesABigEndianBlock : Obligations.St64WritesABigEndianBlock := by
  unfold Obligations.St64WritesABigEndianBlock
  intro s
  have hi : Instr.st64 ∈ codecCommands := by decide
  refine ⟨decode_encode .st64, exec_codec_ignored hi, exec_codec_oneOutOfBounds hi rfl, fun hf hb => ?_⟩
  refine ⟨_, exec_codec_runs hi hf ((rangesHold_one rfl).2 hb), rfl, fun k hk => ?_,
    fun a => readByte_write64_outside s (dst s) a (join s.regs.dhi s.regs.dlo)⟩
  rw [← join_toNat, ← blockByte_toNat]
  exact congrArg BitVec.toNat (readByte_write64_inside s (dst s) (join s.regs.dhi s.regs.dlo) hk)

/-! ## Hex digits -/

/-- The character of a nibble as a number (R185): neither sum wraps. -/
theorem hexChar_toNat (v : BitVec 4) :
    (hexChar v).toNat = if v.toNat ≤ 9 then 0x30 + v.toNat else 0x61 + (v.toNat - 10) := by
  have hv := v.isLt
  unfold hexChar
  split_ifs with h
  · simp only [BitVec.toNat_add, BitVec.toNat_setWidth, BitVec.reduceToNat]
    omega
  · simp only [BitVec.toNat_add, BitVec.toNat_sub, BitVec.toNat_setWidth, BitVec.reduceToNat]
    omega

/-- The value of a character as a number (R187), interval by interval. -/
theorem hexVal_toNat (c : Byte) :
    (hexVal c).map BitVec.toNat =
      if 0x30 ≤ c.toNat ∧ c.toNat ≤ 0x39 then some (c.toNat - 0x30)
      else if 0x61 ≤ c.toNat ∧ c.toNat ≤ 0x66 then some (c.toNat - 0x61 + 10) else none := by
  unfold hexVal
  split_ifs with hdigit hletter
  · simp only [Option.map_some, BitVec.toNat_sub, BitVec.toNat_setWidth, BitVec.reduceToNat, Option.some.injEq]
    omega
  · simp only [Option.map_some, BitVec.toNat_add, BitVec.toNat_sub, BitVec.toNat_setWidth, BitVec.reduceToNat,
      Option.some.injEq]
    omega
  · rfl

/-- Settles O55, each function by its numbers. -/
theorem hexDigitsAreAsGiven : Obligations.HexDigitsAreAsGiven := ⟨hexChar_toNat, hexVal_toNat⟩

/-! ## HEXENC -/

/-- 2·LEN fits COUNT when the characters fit BUF, which holds 2^31 bytes at most (00_scope.md R7). -/
theorem hexEncodeEffect_count {s : State} (hp : s.plat.wellFormed = true)
    (hd : dst s + 2 * len s ≤ s.plat.bufBytes) : (hexEncodeEffect s).regs.count.toNat = 2 * len s := by
  obtain ⟨-, hmax, -⟩ := (platform_wellFormed_iff s.plat).1 hp
  simp only [hexEncodeEffect, setCount_regs, BitVec.toNat_ofNat]
  exact Nat.mod_eq_of_lt (show 2 * len s < 2 ^ 32 by omega)

/-- Settles O56, clause by clause: ignored, BUFFER_BOUNDS, the fold of turns. -/
theorem hexencWritesTheCharacters : Obligations.HexencWritesTheCharacters := by
  unfold Obligations.HexencWritesTheCharacters
  intro s
  have hi : Instr.hexenc ∈ codecCommands := by decide
  refine ⟨decode_encode .hexenc, exec_codec_ignored hi, exec_codec_twoOutOfBounds hi rfl, fun hf hs hd => ?_⟩
  exact ⟨_, _, hexEncodeLoop_eq_foldl (len s) (src s) (dst s) s,
    exec_codec_runs hi hf ((rangesHold_two rfl).2 ⟨hs, hd⟩), rfl, fun hp => hexEncodeEffect_count hp hd⟩

/-! ## HEXDEC -/

/-- Two nibbles joined, as a number (R188). -/
theorem nibbles_append_eq_ofNat (h l : BitVec 4) :
    (h ++ l : BitVec (4 + 4)) = BitVec.ofNat 8 (16 * h.toNat + l.toNat) := by
  apply BitVec.eq_of_toNat_eq
  rw [append_toNat, BitVec.toNat_ofNat]
  omega

section
variable {src dst : Nat} {u : Nat × State}

/-- A valid pair's byte goes to the next place. -/
theorem hexDecodeTurn_valid {h l : BitVec 4} (hh : hexVal (readByte u.2 src) = some h)
    (hl : hexVal (readByte u.2 (src + 1)) = some l) :
    hexDecodeTurn src dst u = (u.1 + 1, writeByte (dst + u.1) (BitVec.ofNat 8 (16 * h.toNat + l.toNat)) u.2) := by
  simp only [hexDecodeTurn, hexPair, hh, hl, nibbles_append_eq_ofNat]

/-- A pair whose characters do not both have a value is skipped. -/
theorem hexDecodeTurn_malformed
    (hno : ∀ h l, hexVal (readByte u.2 src) = some h → hexVal (readByte u.2 (src + 1)) = some l → False) :
    hexDecodeTurn src dst u = u := by
  unfold hexDecodeTurn hexPair
  cases hh : hexVal (readByte u.2 src) with
  | none => rfl
  | some h =>
    cases hl : hexVal (readByte u.2 (src + 1)) with
    | none => rfl
    | some l => exact (hno h l hh hl).elim

end

/-- Settles O57, clause by clause: ignored, BUFFER_BOUNDS, the fold whose turn packs a valid pair or skips. -/
theorem hexdecSkipsMalformedPairs : Obligations.HexdecSkipsMalformedPairs := by
  unfold Obligations.HexdecSkipsMalformedPairs
  intro s
  have hi : Instr.hexdec ∈ codecCommands := by decide
  refine ⟨decode_encode .hexdec, exec_codec_ignored hi, exec_codec_twoOutOfBounds hi rfl, fun hf hs hd => ?_⟩
  refine ⟨hexDecodeLoop (len s / 2) (src s) (dst s) s, _, ?_,
    exec_codec_runs hi hf ((rangesHold_two rfl).2 ⟨hs, hd⟩), rfl, hexDecodeEffect_count s⟩
  rw [hexDecodeLoop_eq_foldl]
  refine List.foldl_ext _ _ _ fun u i _ => ?_
  split
  next hh hl => exact hexDecodeTurn_valid hh hl
  next hno => exact hexDecodeTurn_malformed hno

end Sys2Proof.Machine
end

section
/-! PROOF. The faults (60_exceptions.md): the order of the checks and the code of the first that fails (R211 to
R216), fault entry (R217, R218) and the faulted state (R219). -/

namespace Sys2Proof.Machine

open Sys2Proof.Claims

/-! ## The checks in the terms of R216 -/

/-- All checks of a command hold iff there is a key where one is needed, KEYINIT's key length is legal and the
ranges are in bounds. -/
theorem checksOf_hold_iff (i : Instr) (s : State) :
    (∀ c ∈ checksOf s i, c.1 = true) ↔
      (i ∈ keyedCommands → s.keyv = true) ∧ (i = .keyinit → 1 ≤ len s ∧ len s ≤ 56) ∧ rangesHold i s := by
  cases i <;>
    simp [checksOf, bulkChecks, keyedCommands, rangesHold, checkedRanges, inBounds_iff, keyLengthOk_iff,
      src, dst, len, wholeBytes, srcOffset, dstOffset, lenValue, roundedLength, pairCount, Config.blockBytes]

theorem mem_keyedCommands_of_mayRaise {i : Instr} (h : .noKey ∈ mayRaise i) : i ∈ keyedCommands := by
  cases i
  case encb | decb | ecbenc | ecbdec | cbcenc | cbcdec => decide
  all_goals simp [mayRaise] at h

/-- When the earlier checks hold, a range out of bounds is what is reported. -/
theorem firstFailure_bufferBounds {i : Instr} {s : State} (hk : i ∈ keyedCommands → s.keyv = true)
    (hl : i = .keyinit → 1 ≤ len s ∧ len s ≤ 56) (hr : ¬ rangesHold i s) :
    firstFailure (checksOf s i) = some .bufferBounds := by
  cases hc : firstFailure (checksOf s i) with
  | none =>
    obtain ⟨_, _, h⟩ := (checksOf_hold_iff i s).1 ((firstFailure_none _).1 hc)
    exact absurd h hr
  | some e =>
    obtain rfl | ⟨rfl, hn⟩ | ⟨rfl, rfl⟩ := checksOf_code hc
    · rfl
    · rw [hk (mem_keyedCommands_of_mayRaise (checksOf_mayRaise hc))] at hn; cases hn
    · obtain ⟨h1, h2⟩ := hl rfl
      rw [rangesHold_one rfl, Nat.not_le] at hr
      exact hc.symm.trans (firstFailure_keyBounds h1 h2 hr)

/-- With the earlier checks good, a range out of bounds latches BUFFER_BOUNDS and changes nothing else. -/
theorem exec_outOfBounds {i : Instr} {s : State} (hf : s.latch.fault = false)
    (hk : i ∈ keyedCommands → s.keyv = true) (hl : i = .keyinit → 1 ≤ len s ∧ len s ≤ 56)
    (hr : ¬ rangesHold i s) : exec i s = .next (faultedWith 3 (encode i) s) := by
  have hne : i ≠ .cleanup := by rintro rfl; exact hr (by simp [rangesHold, checkedRanges])
  exact exec_fails hne hf (firstFailure_bufferBounds hk hl hr)

/-- A command whose checks hold leaves the latch. -/
theorem exec_latch_of_checks {i : Instr} {s u : State} (h : exec i s = .next u)
    (hc : ∀ c ∈ checksOf s i, c.1 = true) : u.latch = s.latch := by
  obtain e | ⟨_, _, hfail, _⟩ := exec_latch h
  · exact e
  · rw [(firstFailure_none _).2 hc] at hfail; cases hfail

/-- Settles O26: the range out of bounds is the first check to fail. -/
theorem rangeOutOfBoundsFaults : Obligations.RangeOutOfBoundsFaults := by
  unfold Obligations.RangeOutOfBoundsFaults
  intro s i hf hk hl ⟨r, hmem, hr⟩
  exact exec_outOfBounds hf hk hl fun h => Nat.not_le.2 hr (h r hmem)

/-- Settles O25: the key is the first check of every cipher command. -/
theorem cipherCommandWithoutKeyFaults : Obligations.CipherCommandWithoutKeyFaults := by
  unfold Obligations.CipherCommandWithoutKeyFaults
  exact fun s i hf hk hi => exec_noKey hi hf hk

/-! ## The engine's step -/

/-- The engine's step on a command's word. -/
theorem step_command {s u : State} {i : Instr} (hp : enginePending s) (hd : decode s.cmd = .ok i)
    (he : exec i s = .next u) : step s = .next (clearBusy u) := by
  obtain ⟨hb, hl⟩ := hp
  rw [step_engine hb hl, engineTurn_command hd he]

/-- The engine's step on any other word. -/
theorem step_illegal {s : State} (hp : enginePending s) (hd : ∀ i, decode s.cmd ≠ .ok i) :
    step s = .next (clearBusy (runIllegal s.cmd s)) := by
  obtain ⟨hb, hl⟩ := hp
  rw [step_engine hb hl]
  obtain ⟨i, _, hi, _⟩ | ⟨_, e⟩ := engineTurn_cases s
  · exact absurd hi (hd i)
  · exact e

theorem runIllegal_faulted {s : State} (w : Word) (hf : s.latch.fault = true) : runIllegal w s = s := by
  simp only [runIllegal, hf, if_true]

theorem runIllegal_unfaulted {s : State} (w : Word) (hf : s.latch.fault = false) :
    runIllegal w s = raiseFault .illegalCommand w s := by
  simp only [runIllegal, hf, Bool.false_eq_true, if_false]

/-- A word with RSV other than 0, or that R73 does not list, decodes to no command. -/
theorem decode_ne_ok {w : Word} (h : rsvField w ≠ 0 ∨ ∀ i, (w, i) ∉ listedWords) (i : Instr) :
    decode w ≠ .ok i := by
  intro hd
  obtain hr | hl := h
  · rw [decode_ok hd] at hr; exact hr (rsvField_encode i)
  · exact hl i ((mem_listedWords_iff w i).2 (decode_ok hd))

/-- Settles O14: such a word decodes to no command. -/
theorem illegalWordRaisesIllegalCommand : Obligations.IllegalWordRaisesIllegalCommand := by
  unfold Obligations.IllegalWordRaisesIllegalCommand
  intro s hp hf hw
  rw [step_illegal hp (decode_ne_ok hw), runIllegal_unfaulted _ hf]
  rfl

/-- What the engine's turn does when it takes the machine from FAULT = 0 to FAULT = 1: a fault entry with the
pending word, and the end of BUSY. -/
theorem engineTurn_faultEntry {s t : State} (h : engineTurn s = .next t) (hf : s.latch.fault = false)
    (ht : t.latch.fault = true) : ∃ e, t = clearBusy (raiseFault e s.cmd s) := by
  obtain ⟨i, u, hd, he, e⟩ | ⟨_, e⟩ := engineTurn_cases s <;> rw [e] at h <;> cases h
  · obtain hsame | ⟨c, _, _, rfl⟩ := exec_latch he
    · rw [clearBusy_latch, hsame, hf] at ht; cases ht
    · exact ⟨c, by rw [decode_ok hd]⟩
  · exact ⟨.illegalCommand, by rw [runIllegal_unfaulted _ hf]⟩

/-- Settles O23: the engine's turn is a fault entry, whose code is one of R210's. -/
theorem faultEntryWritesOnlyTheLatch : Obligations.FaultEntryWritesOnlyTheLatch := by
  unfold Obligations.FaultEntryWritesOnlyTheLatch
  intro s t ⟨hb, hl⟩ hf h ht
  rw [step_engine hb hl] at h
  obtain ⟨e, rfl⟩ := engineTurn_faultEntry h hf ht
  exact ⟨ecodeOf e, by cases e <;> decide, rfl⟩

/-- The latch after the engine's step on a command's word is the command's. -/
theorem step_command_latch {s t u : State} {i : Instr} (hp : enginePending s) (hd : decode s.cmd = .ok i)
    (h : step s = .next t) (he : exec i s = .next u) : t.latch = u.latch := by
  rw [step_command hp hd he] at h
  cases h
  rfl

/-- Settles O24: the latch kept, the illegal word, then the command's first failing check in the order of R216. -/
theorem firstFailingCheckIsReported : Obligations.FirstFailingCheckIsReported := by
  unfold Obligations.FirstFailingCheckIsReported
  intro s t hp h
  refine ⟨fun hf => ?_, fun hf hd => ?_, fun i hf hd => ?_⟩
  · obtain ⟨hb, hl⟩ := hp
    exact engineTurn_latch ((step_engine hb hl).symm.trans h) hf
  · rw [step_illegal hp hd, runIllegal_unfaulted _ hf] at h
    cases h
    rfl
  · rw [decode_ok hd]
    refine ⟨fun hi hk => ?_, fun hi hlen => ?_, fun hk hl => ⟨fun hr => ?_, fun hr => ?_⟩⟩
    · exact step_command_latch hp hd h (exec_noKey hi hf hk)
    · subst hi
      exact step_command_latch hp hd h (exec_fails (by decide) hf (firstFailure_keyLength hlen))
    · exact step_command_latch hp hd h (exec_outOfBounds hf hk hl hr)
    · obtain ⟨u, hu⟩ := exec_answers i s
      rw [step_command_latch hp hd h hu, exec_latch_of_checks hu ((checksOf_hold_iff i s).2 ⟨hk, hl, hr⟩)]

/-! ## The faulted state -/

/-- With FAULT = 1 a word other than CLEANUP's ends BUSY and does nothing else (R219). -/
theorem step_ignored {s : State} (hf : s.latch.fault = true) (hp : enginePending s)
    (hw : s.cmd ≠ encode .cleanup) : step s = .next (clearBusy s) := by
  by_cases hd : ∃ i, decode s.cmd = .ok i
  · obtain ⟨i, hi⟩ := hd
    have hne : i ≠ .cleanup := by rintro rfl; exact hw (decode_ok hi)
    exact step_command hp hi (exec_ignored hne hf)
  · rw [step_illegal hp (not_exists.1 hd), runIllegal_faulted _ hf]

/-- The host's moving on reads in no register. -/
@[simp] theorem readReg_advance (s : State) (r : Reg) : readReg (advance s) r = readReg s r := by cases r <;> rfl

/-- Settles O22: the engine ignores the word or runs CLEANUP; the host's accesses are those of every state. -/
theorem faultedStateIgnoresCommands : Obligations.FaultedStateIgnoresCommands := by
  unfold Obligations.FaultedStateIgnoresCommands
  intro s hf
  refine ⟨step_ignored hf, fun hp hw => ?_, fun hfree r hr v ho => ?_, fun hfree hplat off hoff => ?_⟩
  · have hd : decode s.cmd = .ok .cleanup := by rw [hw]; exact decode_encode .cleanup
    exact ⟨_, exec_cleanup _, step_command hp hd (exec_cleanup s)⟩
  · obtain ⟨hwrite, _⟩ := hostAccessesRegistersByAlignedWords s hfree
    refine ⟨_, hwrite r v ho, ?_, ?_⟩
    · rw [readReg_advance, readReg_writeReg hr, if_pos rfl]
    · rw [advance_latch, writeReg_regs_only hr]
  · obtain ⟨hw8, hr8⟩ := hostAccessesBufferByBytes s off hfree hplat hoff
    refine ⟨fun b ho => ?_, fun ho => ?_⟩
    · obtain ⟨t, ht, hb, _⟩ := hw8 b ho
      exact ⟨t, ht, hb⟩
    · obtain ⟨t, ht, hseen, _⟩ := hr8 ho
      exact ⟨t, ht, hseen⟩

end Sys2Proof.Machine
end

section
/-! PROOF. The busy duty (70_reset_and_hazards.md R244): what it refuses, and what a read of STATUS does to it. -/

namespace Sys2Proof.Machine

open Sys2Proof.Claims

/-- R244: a host that may only read STATUS breaks its duty by any other move, whenever the step is the host's. -/
theorem step_busyHazard {s : State} {op : HostOp} (hm : ¬ enginePending s) (ho : nextOp s = some op)
    (hd : onlyStatus s = true) (ha : allowedWhileBusy s.plat op = false) : step s = .refused .busyHazard := by
  rw [step_host hm, hostTurn_op ((nextOp_waited s).trans ho)]
  simp only [performOp, onlyStatus_waited, waited_plat, hd, ha, Bool.not_false, Bool.and_self, if_true]

/-- STATUS is the one register the duty lets the host read, and BASE + 0x004 its one address. -/
theorem allowedWhileBusy_r32_of_ne {p : Platform} {a : Nat} (h : a ≠ p.base + 0x004) :
    allowedWhileBusy p (.r32 a) = false :=
  decide_eq_false fun ht => h (busTarget_register ht)

/-- A read of STATUS returns it, and keeps a duty to poll while it shows BUSY = 1. -/
theorem hostReadReg_status_host (s : State) :
    (hostReadReg .status s).host
      = { s.host with seen := statusWord s :: s.host.seen, mustPoll := s.host.mustPoll && s.busy } := by
  simp only [hostReadReg, readReg, noteStatus_host, record_host, showsBusy_statusWord]

/-- A turn of `wait` is a read of STATUS, whether or not it moves on. -/
theorem pollStatus_host (s : State) :
    (pollStatus s).host.seen = statusWord s :: s.host.seen
      ∧ (pollStatus s).host.mustPoll = (s.host.mustPoll && s.busy) := by
  simp only [pollStatus]
  split_ifs
  · rw [hostReadReg_status_host]; exact ⟨rfl, rfl⟩
  · rw [advance_host, hostReadReg_status_host]; exact ⟨rfl, rfl⟩

/-- A STATUS read and a `wait` are done in every state, with the same note of BUSY. -/
theorem statusRead_done {s : State} {op : HostOp} (hop : op = .r32 (s.plat.base + 0x004) ∨ op = .poll) :
    ∃ t, OpDone s op t ∧ t.host.seen = statusWord s :: s.host.seen
      ∧ t.host.mustPoll = (s.host.mustPoll && s.busy) := by
  obtain rfl | rfl := hop
  · refine ⟨_, .hasRead .status fun _ => rfl, ?_⟩
    rw [advance_host, hostReadReg_status_host]
    exact ⟨rfl, rfl⟩
  · exact ⟨_, .polled, pollStatus_host s⟩

/-- Settles O15: the duty refuses what `allowedWhileBusy` does not list, and the rest is done. -/
theorem hostMayOnlyReadStatusWhileBusy : Obligations.HostMayOnlyReadStatusWhileBusy := by
  unfold Obligations.HostMayOnlyReadStatusWhileBusy
  intro s op hduty hm ho
  have hd : onlyStatus s = true := by simp only [onlyStatus, Bool.or_eq_true]; exact hduty
  refine ⟨⟨?_, ?_, ?_, ?_⟩, fun hop => ?_, ?_⟩
  · rintro a v rfl
    exact step_busyHazard hm ho hd rfl
  · rintro a ha rfl
    exact step_busyHazard hm ho hd (allowedWhileBusy_r32_of_ne ha)
  · rintro a b rfl
    exact step_busyHazard hm ho hd rfl
  · rintro a rfl
    exact step_busyHazard hm ho hd rfl
  · rw [← waited_plat s] at hop
    obtain ⟨t, hdone, hseen, hpoll⟩ := statusRead_done hop
    refine ⟨t, step_of_opDone hm ho hdone, ?_, ?_⟩
    · rw [hseen, statusWord_waited, waited_host]
    · rw [hpoll, waited_host, waited_busy, Bool.and_eq_true]
  · rintro rfl
    exact ⟨_, step_of_opDone hm ho .wasReset, rfl, rfl⟩

end Sys2Proof.Machine
end

section
/-! PROOF. The cipher's inferences: EncryptBlock and DecryptBlock invert each other (42_ecb_core.md R133), EncryptBlock
in the textbook's form (R141), the spot values on the tables of π (41_pi_constants.md R127), and keys whose streams
agree (40_key_schedule.md R104). -/

namespace Sys2Proof.Machine

/-! ## The inverse -/

/-- DecryptBlock is the rounds of EncryptBlock, run backwards on the exchanged halves, between the same two
whitenings. -/
theorem decryptBlock_eq_encryptRounds (c : Cipher) (l r : Word) :
    decryptBlock c (l, r) =
      let m := rounds.reverse.foldl (encryptRound c) (r, l ^^^ pEntry c 17)
      (m.1 ^^^ pEntry c 0, m.2) := by
  have hswap := foldl_decryptRound_swap c rounds.reverse (r, l ^^^ pEntry c 17)
  rw [Prod.swap_prod_mk] at hswap
  simp only [decryptBlock, hswap, Prod.fst_swap, Prod.snd_swap]

/-- The other half of R133: EncryptBlock undoes the rounds of DecryptBlock and each of its whitenings. -/
theorem encryptBlock_decryptBlock (c : Cipher) (b : Word × Word) : encryptBlock c (decryptBlock c b) = b := by
  obtain ⟨l, r⟩ := b
  have redo := foldl_encryptRound_forward c rounds (r, l ^^^ pEntry c 17)
  rw [decryptBlock_eq_encryptRounds]
  simp only [encryptBlock, BitVec.xor_assoc, BitVec.xor_self, BitVec.xor_zero, redo]

/-- Settles O34, one lemma for each order. -/
theorem decryptAndEncryptInvertEachOther : Obligations.DecryptAndEncryptInvertEachOther := by
  unfold Obligations.DecryptAndEncryptInvertEachOther
  exact fun c b => ⟨decryptBlock_encryptBlock c b, encryptBlock_decryptBlock c b⟩

/-! ## The textbook's form -/

/-- The halves of EncryptBlock after round `n`, seen from those of the textbook loop after `n` turns: the half the
loop changes next has P[n] in it already, and an odd `n` has the halves exchanged, as EncryptBlock never swaps. -/
def fromTextbook (c : Cipher) (n : Nat) (m : Word × Word) : Word × Word :=
  if n % 2 = 0 then (m.1 ^^^ pEntry c (Fin.ofNat 18 n), m.2) else (m.2, m.1 ^^^ pEntry c (Fin.ofNat 18 n))

/-- Round `n + 1` of EncryptBlock is turn `n` of the textbook loop. -/
theorem encryptRound_fromTextbook (c : Cipher) {n : Nat} (hn : n < 17) (m : Word × Word) :
    encryptRound c (fromTextbook c n m) (Fin.ofNat 18 (n + 1))
      = fromTextbook c (n + 1) (textbookRound c m (Fin.ofNat 18 n)) := by
  have hr : (Fin.ofNat 18 (n + 1)).val = n + 1 := Nat.mod_eq_of_lt (by omega)
  rcases Nat.mod_two_eq_zero_or_one n with h | h
  · have h' : (n + 1) % 2 = 1 := by omega
    simp only [encryptRound, fromTextbook, textbookRound, hr, h, h', if_true, one_ne_zero, if_false]
  · have h' : (n + 1) % 2 = 0 := by omega
    simp only [encryptRound, fromTextbook, textbookRound, hr, h, h', if_true, zero_ne_one, one_ne_zero, if_false]

theorem foldl_encryptRound_fromTextbook (c : Cipher) {n : Nat} (hn : n ≤ 17) (b : Word × Word) :
    ((List.range n).map fun i => Fin.ofNat 18 (i + 1)).foldl (encryptRound c) (fromTextbook c 0 b)
      = fromTextbook c n (((List.range n).map (Fin.ofNat 18)).foldl (textbookRound c) b) := by
  induction n with
  | zero => rfl
  | succ n ih =>
    simp only [List.range_succ, List.map_append, List.foldl_append, List.map_cons, List.map_nil, List.foldl_cons,
      List.foldl_nil, ih (by omega)]
    exact encryptRound_fromTextbook c hn _

/-- Settles O35: after sixteen rounds the halves are the textbook's, the left one with P[16] in it. -/
theorem textbookFormulationAgrees : Obligations.TextbookFormulationAgrees := by
  unfold Obligations.TextbookFormulationAgrees
  intro c b
  have sixteen : rounds.foldl (encryptRound c) (b.1 ^^^ pEntry c 0, b.2) = _ :=
    foldl_encryptRound_fromTextbook c (n := 16) (by decide) b
  simp only [encryptBlock, sixteen]
  rfl

/-! ## The tables of π -/

theorem initial_pEntry_spots :
    pEntry Cipher.initial 0 = 0x243F6A88 ∧ pEntry Cipher.initial 17 = 0x8979FB1B := by decide +kernel

theorem initial_sEntry_spots :
    sEntry Cipher.initial 0 0 = 0xD1310BA6 ∧ sEntry Cipher.initial 0 255 = 0x6E85076A
      ∧ sEntry Cipher.initial 1 0 = 0x4B7A70E9 ∧ sEntry Cipher.initial 2 0 = 0xE93D5A68
      ∧ sEntry Cipher.initial 3 0 = 0x3A39CE37 ∧ sEntry Cipher.initial 3 255 = 0x3AC372E6 := by decide +kernel

/-- F(0) takes the first entry of each S-box, since every byte of 0 is 0. -/
theorem roundF_zero (c : Cipher) :
    roundF c 0 = ((sEntry c 0 0 + sEntry c 1 0) ^^^ sEntry c 2 0) + sEntry c 3 0 := rfl

theorem initial_encryptBlock_zero :
    encryptBlock Cipher.initial (0, 0) = (0x706D9FCC, 0x1792D23A) := by decide +kernel

/-- Settles O32, by the tables' own entries. -/
theorem piTablesHaveTheSpotValues : Obligations.PiTablesHaveTheSpotValues := by
  unfold Obligations.PiTablesHaveTheSpotValues
  obtain ⟨p0, p17⟩ := initial_pEntry_spots
  obtain ⟨s0, s0last, s1, s2, s3, s3last⟩ := initial_sEntry_spots
  have hF : roundF Cipher.initial 0x00000000 = 0x2FCFF51E := by
    rw [roundF_zero, s0, s1, s2, s3]
    decide
  exact ⟨p0, p17, s0, s0last, s1, s2, s3, s3last, hF, initial_encryptBlock_zero⟩

/-! ## Keys with the same stream -/

/-- Byte `j` of a key's cyclic stream (R104). -/
def keyByte (key : List Byte) (j : Nat) : Byte := key.getD (j % key.length) 0

/-- P[i] takes in bytes 4i to 4i + 3 of the stream. -/
theorem keyWord_eq_keyByte (key : List Byte) (i : Nat) :
    keyWord key i
      = be32 (keyByte key (4 * i)) (keyByte key (4 * i + 1)) (keyByte key (4 * i + 2)) (keyByte key (4 * i + 3)) := rfl

/-- Step 2 reads a key's first 72 bytes only. -/
theorem mixKey_congr {k1 k2 : List Byte} (h : ∀ j < 72, keyByte k1 j = keyByte k2 j) (c : Cipher) :
    mixKey k1 c = mixKey k2 c := by
  obtain ⟨hs1, hp1⟩ := mixKey_entries k1 c
  obtain ⟨hs2, hp2⟩ := mixKey_entries k2 c
  refine Cipher.eq_of_entries (fun i => ?_) (hs1.trans hs2.symm)
  have hi := i.isLt
  rw [hp1, hp2, keyWord_eq_keyByte, keyWord_eq_keyByte, h _ (by omega), h _ (by omega), h _ (by omega),
    h _ (by omega)]

/-- Step 3 reads the tables step 2 left, and the key no more. -/
theorem keySchedule_congr {k1 k2 : List Byte} (h : ∀ j < 72, keyByte k1 j = keyByte k2 j) :
    keySchedule k1 = keySchedule k2 := congrArg selfEncrypt (mixKey_congr h Cipher.initial)

/-- K||K has K's stream. -/
theorem keyByte_append_self {k : List Byte} (hk : 1 ≤ k.length) (j : Nat) :
    keyByte (k ++ k) j = keyByte k j := by
  have hlt : j % (k.length + k.length) < k.length + k.length := Nat.mod_lt _ (by omega)
  have hmod : j % (k.length + k.length) % k.length = j % k.length :=
    Nat.mod_mod_of_dvd j ⟨2, by omega⟩
  rw [keyByte, keyByte, List.length_append, ← hmod]
  generalize j % (k.length + k.length) = i at hlt
  rcases Nat.lt_or_ge i k.length with h | h
  · rw [List.getD_append _ _ _ _ h, Nat.mod_eq_of_lt h]
  · rw [List.getD_append_right _ _ _ _ h, Nat.mod_eq_sub_mod h, Nat.mod_eq_of_lt (by omega)]

/-- Settles O31: the schedule reads the first 72 bytes of the stream, and K||K has K's. -/
theorem equalKeyStreamsGiveEqualSchedules : Obligations.EqualKeyStreamsGiveEqualSchedules := by
  unfold Obligations.EqualKeyStreamsGiveEqualSchedules
  exact ⟨fun _ _ _ _ _ _ h => keySchedule_congr h,
    fun _ hk _ => keySchedule_congr fun j _ => keyByte_append_self hk j⟩

end Sys2Proof.Machine
end

section
/-! PROOF. The round trips through BUF: CBCDEC after CBCENC (43_cbc.md R166), HEXDEC after HEXENC (44_codec.md R190),
and the words of an 8-byte write (20_memory.md R54, 44_codec.md R180). -/

namespace Sys2Proof.Machine

open Sys2Proof.Claims

/-! ## CBC -/

/-- The machine before the second command of the round trip: CBCENC has run, its output is the source, `out` is the
destination, and IV is the initial one again. -/
def cbcReturn (s : State) (out : Word) : State :=
  setIv s.iv (withRanges s.regs.dst out (effectOf s .cbcenc).regs.len (effectOf s .cbcenc))

section
variable (s : State) (out : Word)
@[simp] theorem cbcReturn_plat : (cbcReturn s out).plat = s.plat := bulkEffect_plat _ s
@[simp] theorem cbcReturn_cipher : (cbcReturn s out).cipher = s.cipher := bulkEffect_cipher _ s
@[simp] theorem cbcReturn_keyv : (cbcReturn s out).keyv = s.keyv := bulkEffect_keyv _ s
@[simp] theorem cbcReturn_latch : (cbcReturn s out).latch = s.latch := bulkEffect_latch _ s
@[simp] theorem cbcReturn_iv : (cbcReturn s out).iv = s.iv := rfl
@[simp] theorem src_cbcReturn : src (cbcReturn s out) = dst s := rfl
@[simp] theorem dst_cbcReturn : dst (cbcReturn s out) = out.toNat := rfl
@[simp] theorem wholeBytes_cbcReturn : wholeBytes (cbcReturn s out) = wholeBytes s := wholeBytes_bulkEffect _ s
@[simp] theorem read64_cbcReturn (a : Nat) : read64 (cbcReturn s out) a = read64 (effectOf s .cbcenc) a := rfl
end

/-- Block by block the plaintext comes back: both chains take in the same ciphertext block, and XORed twice it is
gone. -/
theorem read64_cbcdec_cbcReturn {s : State} {out : Word} {b : Nat} (hb : 8 * b < wholeBytes s)
    (hs : inPlaceOrApart (src s) (dst s) (wholeBytes s))
    (hd : inPlaceOrApart (dst s) out.toNat (wholeBytes s)) :
    read64 (effectOf (cbcReturn s out) .cbcdec) (out.toNat + 8 * b) = read64 s (src s + 8 * b) := by
  have henc : read64 (effectOf s .cbcenc) (dst s + 8 * b) = _ := read64_bulkEffect_cbcEncrypt s.cipher hb hs
  have hdec : read64 (effectOf (cbcReturn s out) .cbcdec) (out.toNat + 8 * b) = _ :=
    read64_bulkEffect_cbcDecrypt (s := cbcReturn s out) _ (by simpa using hb) (by simpa using hd)
  rw [hdec, src_cbcReturn, cbcReturn_cipher, cbcReturn_iv, read64_cbcReturn, read64_cbcReturn, henc,
    decrypt64_encrypt64, BitVec.xor_assoc]
  exact (congrArg _ BitVec.xor_self).trans BitVec.xor_zero

/-- Both commands leave the last ciphertext block in IV. -/
theorem cbcdec_cbcReturn_iv {s : State} {out : Word} (hd : inPlaceOrApart (dst s) out.toNat (wholeBytes s)) :
    (effectOf (cbcReturn s out) .cbcdec).iv = (effectOf s .cbcenc).iv := by
  have henc : (effectOf s .cbcenc).iv = _ := bulkEffect_cbcEncrypt_iv s.cipher s
  have hdec : (effectOf (cbcReturn s out) .cbcdec).iv = _ :=
    bulkEffect_cbcDecrypt_iv (s := cbcReturn s out) _ (by simpa using hd)
  rw [hdec, henc, src_cbcReturn, wholeBytes_cbcReturn, cbcReturn_iv, read64_cbcReturn]
  rfl

/-- Settles O49: both commands answer, equal blocks are equal bytes, and IV is the last ciphertext block. -/
theorem cbcRoundTripRestoresThePlaintext : Obligations.CbcRoundTripRestoresThePlaintext := by
  unfold Obligations.CbcRoundTripRestoresThePlaintext
  intro s out hf hk hs hd ho hse hsd
  have henc : exec .cbcenc s = .next (effectOf s .cbcenc) := exec_bulk_runs (by decide) hf hk hs hd
  have hdec : exec .cbcdec (cbcReturn s out) = .next _ :=
    exec_bulk_runs (by decide) (by simpa using hf) (by simpa using hk) (by simpa using hd) (by simpa using ho)
  have h8 : wholeBytes s % 8 = 0 := by simp only [wholeBytes]; omega
  exact ⟨_, _, henc, hdec, fun j hj => readByte_of_read64 (fun b hb => read64_cbcdec_cbcReturn hb hse hsd) h8 hj,
    cbcdec_cbcReturn_iv hsd, fun hne => (bulkEffect_cbcEncrypt_iv s.cipher s).trans (if_neg hne)⟩

/-! ## Hex -/

/-- HEXENC to a range apart writes, for each byte, a pair of characters that reads as the byte. -/
theorem hexPair_hexEncodeEffect {s : State} (h : apart (src s) (len s) (dst s) (2 * len s)) {i : Nat}
    (hi : i < len s) :
    hexPair (readByte (hexEncodeEffect s) (dst s + 2 * i)) (readByte (hexEncodeEffect s) (dst s + 2 * i + 1))
      = some (readByte s (src s + i)) := by
  obtain ⟨hhigh, hlow⟩ := readByte_hexEncodeLoop_dst (len s) (len s) i (src s) (dst s) s hi le_rfl h
  have he : ∀ a, readByte (hexEncodeEffect s) a = readByte (hexEncodeLoop (len s) (src s) (dst s) s) a := fun _ => rfl
  rw [he, he, hhigh, hlow, hexPair_hexChar]

/-- HEXDEC of `n` valid pairs, in place or to a range apart, writes their bytes and counts them. -/
theorem hexDecodeEffect_valid {s : State} {n : Nat} (f : Nat → Byte) (hn : len s = 2 * n)
    (hv : ∀ i < n, hexPair (readByte s (src s + 2 * i)) (readByte s (src s + 2 * i + 1)) = some (f i))
    (h : dst s = src s ∨ apart (dst s) n (src s) (2 * n)) :
    (∀ j < n, readByte (hexDecodeEffect s) (dst s + j) = f j) ∧ (hexDecodeEffect s).regs.count.toNat = n := by
  have hp : pairCount s = n := Nat.div_eq_of_eq_mul_right (by decide) hn
  obtain ⟨hcount, hbytes⟩ := hexDecodeLoop_valid n n (src s) (dst s) s f le_rfl hv h
  rw [hexDecodeEffect_count, hexDecodeEffect, hp]
  exact ⟨hbytes, hcount⟩

section
variable (s : State)
@[simp] theorem hexEncodeEffect_plat : (hexEncodeEffect s).plat = s.plat := by rw [hexEncodeEffect_frame]
@[simp] theorem hexEncodeEffect_latch : (hexEncodeEffect s).latch = s.latch := by rw [hexEncodeEffect_frame]
end

/-- HEXDEC of `n` pairs with its operands set, on a machine without a fault, and both ranges in bounds. -/
theorem exec_hexdec_withRanges {t : State} {a b l : Word} {n : Nat} (hf : t.latch.fault = false)
    (hl : l.toNat = 2 * n) (ha : a.toNat + 2 * n ≤ t.plat.bufBytes) (hb : b.toNat + n ≤ t.plat.bufBytes) :
    exec .hexdec (withRanges a b l t) = .next (hexDecodeEffect (withRanges a b l t)) := by
  have hn : len (withRanges a b l t) / 2 = n := Nat.div_eq_of_eq_mul_right (by decide) hl
  refine exec_codec_runs (by decide) hf ((rangesHold_two rfl).2 ?_)
  rw [hn]
  exact ⟨ha, hb⟩

/-- Settles O58: both commands answer, and the second reads the pairs the first wrote. -/
theorem hexRoundTripRestoresTheBytes : Obligations.HexRoundTripRestoresTheBytes := by
  unfold Obligations.HexRoundTripRestoresTheBytes
  intro s l2 out hf hs hd ha hl ho hout
  have henc : exec .hexenc s = .next (hexEncodeEffect s) :=
    exec_codec_runs (by decide) hf ((rangesHold_two rfl).2 ⟨hs, hd⟩)
  have hdec : exec .hexdec (withRanges s.regs.dst out l2 (hexEncodeEffect s)) = .next _ :=
    exec_hexdec_withRanges (by simpa using hf) hl (by rw [hexEncodeEffect_plat]; exact hd)
      (by rw [hexEncodeEffect_plat]; exact ho)
  have hback := hexDecodeEffect_valid (s := withRanges s.regs.dst out l2 (hexEncodeEffect s))
    (fun i => readByte s (src s + i)) hl (fun i hi => hexPair_hexEncodeEffect ha hi)
    (hout.imp_left (congrArg BitVec.toNat))
  exact ⟨_, _, henc, hdec, hback⟩

/-! ## Words and blocks in BUF -/

@[simp] theorem hiHalf_read64 (s : State) (a : Nat) : hiHalf (read64 s a) = read32 s a := hiHalf_join _ _
@[simp] theorem loHalf_read64 (s : State) (a : Nat) : loHalf (read64 s a) = read32 s (a + 4) := loHalf_join _ _

/-- Settles O54: the two words are the halves of the block read back. -/
theorem mixedWidthReadsSeeTheHalves : Obligations.MixedWidthReadsSeeTheHalves := by
  unfold Obligations.MixedWidthReadsSeeTheHalves
  intro s a hi lo b0 b1 b2 b3
  have hblock := read64_write64 s a (join hi lo)
  obtain ⟨h0, h1, h2, h3⟩ := byteN_be32 b0 b1 b2 b3
  refine ⟨?_, ?_, hblock, be32_bytes hi, h0, h1, h2, h3, hiHalf_join hi lo, loHalf_join hi lo⟩
  · rw [← hiHalf_read64, hblock, hiHalf_join]
  · rw [← loHalf_read64, hblock, loHalf_join]

end Sys2Proof.Machine
end
